-- ==== Sys2Proof/Word.lean ====
section
/-! DEFINITION. The word types of the block (spec/00_scope.md R12): bytes, the 16-bit frame word, the 32-bit
operands, the 34-bit command word, and the indices of the two frame buffers. -/

namespace Sys2Proof

/-- A byte: font, frame-buffer and polarity values, used as bit sets (R12). -/
abbrev Byte := BitVec 8

/-- A frame word, the 16 bits of one transmission (R73). -/
abbrev FrameWord := BitVec 16

/-- A 32-bit port operand, `TIME_W = NUM_W = 32` (R7, R80). -/
abbrev Word32 := BitVec 32

/-- A command word `{op, arg}` (R78). -/
abbrev CmdWord := BitVec 34

/-- The buffer bit `b` of `FB[b][c]` (R21, R52). -/
abbrev BufSel := BitVec 1

/-- A column index 0..7, 3 bits (R24, R52). -/
abbrev Column := BitVec 3

/-- The value of one frame buffer: 8 column bytes, column 0 first (R72). -/
abbrev FrameBuf := Vector Byte 8

end Sys2Proof
end

