-- ==== Sys2Proof/Config.lean ====
section
/-! DEFINITION. What an implementation fixes: the constants of spec/00_scope.md R6, the configuration record `CFG`
of R7 with its defaults, and the free values (opaque constants without a body). -/

namespace Sys2Proof

/-- Who starts a scan step, `SCAN_MODE` of R7 (D17). -/
inductive ScanMode where
  /-- The periodic tick timer starts a scan step (R170). -/
  | timer
  /-- The host's POLL starts a scan step (R171). -/
  | polled
  deriving DecidableEq, Repr

/-- The configuration record `CFG` of R7: fixed before reset, never written, a parameter of every step (R29).
Durations are in nanoseconds and frequencies in hertz (log 10); `hostUnit`, the duration of one unit of the host's
clock, is needed to read R8 (d) in POLLED mode (log 11). -/
structure Cfg where
  /-- `FONT[d][k]`, digit `d`, glyph column `k`. -/
  font : Vector (Vector Byte 3) 10
  /-- `MINUS[j]`, glyph column `j`. -/
  minus : Vector Byte 2
  tensCol : Fin 8
  onesCol : Fin 8
  singleCol : Fin 8
  negMinusCol : Fin 8
  negDigitCol : Fin 8
  rowActiveLow : Bool
  colActiveLow : Bool
  rowFirst : Bool
  scanMode : ScanMode
  /-- `T_TICK`, in nanoseconds. -/
  tTick : Nat
  /-- `SCAN_INTERVAL`, in units of the host's clock. -/
  scanInterval : Word32
  /-- `F_CLK`, in hertz. -/
  fClk : Nat
  /-- One unit of the host's clock, in nanoseconds. -/
  hostUnit : Nat
  deriving DecidableEq, Repr

namespace Config

/-- `N_COLS` (R6). -/
def nCols : Nat := 8
/-- `N_ROWS` (R6). -/
def nRows : Nat := 8
/-- `GLYPH_W`, the width of a digit glyph in columns (R6, R102). -/
def glyphW : Nat := 3
/-- `MINUS_W`, the width of the minus glyph in columns (R6, R103, C2). -/
def minusW : Nat := 2
/-- `NUM_MIN` (R6). -/
def numMin : Int := -9
/-- `NUM_MAX` (R6). -/
def numMax : Int := 99
/-- `FRAME_BITS` (R6). -/
def frameBits : Nat := 16
/-- `N_GLYPHS`: ten digits and the minus glyph (R6, R101). -/
def nGlyphs : Nat := 11

/-- `REF_FONT` (R106): the spec's own reference font. -/
def refFont : Vector (Vector Byte 3) 10 := #v[
  #v[0x7F, 0x41, 0x7F], #v[0x00, 0x00, 0x7F], #v[0x79, 0x49, 0x4F], #v[0x49, 0x49, 0x7F], #v[0x0F, 0x08, 0x7F],
  #v[0x4F, 0x49, 0x79], #v[0x7F, 0x49, 0x79], #v[0x01, 0x01, 0x7F], #v[0x7F, 0x49, 0x7F], #v[0x4F, 0x49, 0x7F]]

/-- `REF_MINUS` (R7, R106). -/
def refMinus : Vector Byte 2 := #v[0x08, 0x08]

/-- The configuration of `State.reset`: the defaults of R7 and the reference configuration `CFG_REF` of
spec/95_test_vectors.md. DESIGN CHOICE (log 2): R7 gives no default for the polarities, SCAN_MODE and F_CLK, and the
host's unit is open; here both lines are active high as in `CFG_REF`, the mode is TIMER, the clock 1 MHz, the unit 1 us. -/
def reference : Cfg where
  font := refFont
  minus := refMinus
  tensCol := 0
  onesCol := 4
  singleCol := 2
  negMinusCol := 1
  negDigitCol := 4
  rowActiveLow := false
  colActiveLow := false
  rowFirst := true
  scanMode := .timer
  tTick := 1000000
  scanInterval := 1000
  fClk := 1000000
  hostUnit := 1000

/-- FREE VALUE (R222, R243, log 4): what the chain's `SR` (index 0) and `OUT` (index 1) hold at power-on. -/
opaque powerOnChain : Nat → BitVec 16

/-- FREE VALUE (R261, log 12): for how many further cycles, 0..8, a COMPOSE accepted in the given cycle holds
`cmd_ready` low. -/
opaque composeHold : Nat → Fin 9

end Config

/-- `TICK_DIV = T_TICK * F_CLK`, the clock cycles of one tick period (R7, R26), whole cycles (log 10). -/
def Cfg.tickDiv (cfg : Cfg) : Nat := cfg.tTick * cfg.fClk / 1000000000

/-- Clock cycles of one scan step in the reference timing: the capture and 100 pin events (R260). -/
def Config.scanCycles : Nat := 101

end Sys2Proof
end

