-- ==== Sys2Proof/Syntax.lean ====
section
/-! DEFINITION. The syntax: one constructor of `Instr` per row of spec/opcode_table.json, and the lines a script is
made of (spec/30_encoding.md R70, R84). -/

namespace Sys2Proof

/-- An address of the FONT space (R51, R104): the glyph index `g` with its glyph column. Only the addresses that exist
can be written: `k` in 0..2 for the digits 0..9, `j` in 0..1 for the minus glyph (`g = 10`). -/
inductive GlyphCol where
  | digit (d : Fin 10) (k : Fin 3)
  | minus (j : Fin 2)
  deriving DecidableEq, Repr

/-- One constructor per row of the opcode table. -/
inductive Instr where
  /-- Command NOP (R133). -/
  | nop
  /-- Command COMPOSE, `n = sext_32(arg)`; its meaning is defined on all integers (R80, R129). -/
  | compose (n : Int)
  /-- Command PUBLISH (R132). -/
  | publish
  /-- Command POLL, `now = zext_32(arg)` (R171). -/
  | poll (now : Word32)
  /-- Event TICK (R170). -/
  | tick
  /-- Event RESET (R240). -/
  | reset
  /-- The scan step SCAN (R158). -/
  | scan
  /-- TX of a 16-bit word (R161). -/
  | tx (w : FrameWord)
  /-- LATCH_PULSE (R162). -/
  | latchPulse
  /-- FontRead (R104). -/
  | fontRead (g : GlyphCol)
  /-- The frame word `{rb, cb}` (R73, ROW_FIRST true). -/
  | frameDataRowFirst (rb cb : Byte)
  /-- The frame word `{cb, rb}` (R73, ROW_FIRST false). -/
  | frameDataColFirst (rb cb : Byte)
  /-- The frame word BLANK (R76). -/
  | frameBlank
  deriving DecidableEq, Repr

/-- One line of a script: one whole step of an agent, in the total order of R10 and R61. -/
inductive Line where
  /-- The host presents a command word (R78). -/
  | command (w : CmdWord)
  /-- The tick timer fires (R84: only under SCAN_MODE = TIMER). -/
  | tick
  /-- The environment resets the block (R240). -/
  | reset
  deriving DecidableEq, Repr

/-- Who takes a step (R10). -/
inductive Agent where
  | host
  | scanner
  | environment
  deriving DecidableEq, Repr

/-- The agent whose step a line is (R10). -/
def Line.agent : Line → Agent
  | .command _ => .host
  | .tick => .scanner
  | .reset => .environment

/-- What the encoder gives and the decoder reads: a script line (R84), or a frame word (R73). -/
inductive Encoded where
  | line (l : Line)
  | frame (w : FrameWord)
  deriving DecidableEq, Repr

end Sys2Proof
end

