-- ==== Sys2Proof/Decode.lean ====
section
/-! DEFINITION. The encodings (spec/30_encoding.md): frame words (R73 to R77), command words (R78 to R82), the decoder of
script lines and frame words, and the encoder written from the same tables. -/

namespace Sys2Proof

/-! ## Frame words -/

/-- `RMASK` (R74). -/
def Cfg.rmask (cfg : Cfg) : Byte := if cfg.rowActiveLow then 0xFF else 0x00

/-- `CMASK` (R75). -/
def Cfg.cmask (cfg : Cfg) : Byte := if cfg.colActiveLow then 0xFF else 0x00

/-- The one-hot column select `sel(c) = 1 << c` (R75). -/
def sel (c : Column) : Byte := 1#8 <<< c.toNat

/-- The eight columns, left to right (R56). -/
def columns : List Column := [0, 1, 2, 3, 4, 5, 6, 7]

/-- `frame(rb, cb)`: `{rb, cb}` if ROW_FIRST, else `{cb, rb}` (R55, R73). -/
def Cfg.frame (cfg : Cfg) (rb cb : Byte) : FrameWord := if cfg.rowFirst then rb ++ cb else cb ++ rb

/-- Bits 15:8 of a frame word, transmitted first (R73). -/
def firstByte (w : FrameWord) : Byte := w.extractLsb' 8 8

/-- Bits 7:0 of a frame word, transmitted last (R73). -/
def lastByte (w : FrameWord) : Byte := w.extractLsb' 0 8

/-- The row byte of a frame word (R73, R223). -/
def Cfg.rowByte (cfg : Cfg) (w : FrameWord) : Byte := if cfg.rowFirst then firstByte w else lastByte w

/-- The column byte of a frame word (R73, R223). -/
def Cfg.colByte (cfg : Cfg) (w : FrameWord) : Byte := if cfg.rowFirst then lastByte w else firstByte w

/-- `rb = v XOR RMASK`: the row byte on the wire of a column byte in logical polarity (R74, R153). -/
def Cfg.rowPattern (cfg : Cfg) (v : Byte) : Byte := v ^^^ cfg.rmask

/-- `cb = (1 << c) XOR CMASK`: the column byte on the wire that selects column `c` (R75, R154). -/
def Cfg.colSelect (cfg : Cfg) (c : Column) : Byte := sel c ^^^ cfg.cmask

/-- `BLANK = frame(RMASK, CMASK)` (R76). -/
def Cfg.blank (cfg : Cfg) : FrameWord := cfg.frame cfg.rmask cfg.cmask

/-- The data word that shows the byte `v` in column `c`: `frame(v XOR RMASK, sel(c) XOR CMASK)` (R155, R175). -/
def Cfg.dataWord (cfg : Cfg) (v : Byte) (c : Column) : FrameWord := cfg.frame (cfg.rowPattern v) (cfg.colSelect c)

/-- Decoding a 16-bit frame word: every word decodes (R77). BLANK is told apart from the data words, whose byte order is
the configuration's (R73). -/
def decodeFrame (cfg : Cfg) (w : FrameWord) : Instr :=
  if w = cfg.blank then .frameBlank
  else if cfg.rowFirst then .frameDataRowFirst (firstByte w) (lastByte w)
  else .frameDataColFirst (lastByte w) (firstByte w)

/-! ## Command words -/

/-- `op = cmd[33:32]` (R78). -/
def cmdOp (w : CmdWord) : BitVec 2 := w.extractLsb' 32 2

/-- `arg = cmd[31:0]` (R78). -/
def cmdArg (w : CmdWord) : Word32 := w.extractLsb' 0 32

/-- `sext_32(arg)` (R13, R80). -/
def sext32 (arg : Word32) : Int := arg.toInt

/-- Decoding a command word: all four opcodes are assigned and all `2^34` words decode (R79, R82); `arg` of NOP and PUBLISH
is ignored (R81). -/
def decodeCommand (w : CmdWord) : Instr :=
  if cmdOp w = 0b00 then .nop
  else if cmdOp w = 0b01 then .compose (sext32 (cmdArg w))
  else if cmdOp w = 0b10 then .publish
  else .poll (cmdArg w)

/-- The operation of a script line (R84). -/
def decodeLine : Line → Instr
  | .command w => decodeCommand w
  | .tick => .tick
  | .reset => .reset

/-- The instruction of a script line or a frame word. -/
def decode (cfg : Cfg) : Encoded → Instr
  | .line l => decodeLine l
  | .frame w => decodeFrame cfg w

/-! ## Words given as numbers -/

/-- Why a number is no instruction word. -/
inductive DecodeError where
  /-- No format of R70 that has an encoding has this many bits. -/
  | noFormatOfThisWidth
  /-- A bit above the format's 34 or 16 bits is set. -/
  | bitsAboveTheFormat
  deriving DecidableEq, Repr

/-- The command line or the frame word that is the word of `nbits` bits given as a number: CMD34 (34 bits, or the
5 whole bytes that hold them) or FRAME16 (R70). -/
def encodedOfWord (nbits w : Nat) : Except DecodeError Encoded :=
  if nbits = 16 then
    if w < 2 ^ 16 then .ok (.frame (BitVec.ofNat 16 w)) else .error .bitsAboveTheFormat
  else if 34 ≤ nbits ∧ nbits ≤ 40 then
    if w < 2 ^ 34 then .ok (.line (.command (BitVec.ofNat 34 w))) else .error .bitsAboveTheFormat
  else .error .noFormatOfThisWidth

/-- The decoder on a word given as a number, total, rejecting by name. -/
def decodeWord (cfg : Cfg) (nbits w : Nat) : Except DecodeError Instr :=
  match encodedOfWord nbits w with
  | .ok e => .ok (decode cfg e)
  | .error e => .error e

/-- The decoder on an opcode-table row's word, under the configuration of reset. A FRAME16 word has two readings, selected
by ROW_FIRST; the table's number does not say which, and the reset configuration's is taken (log 9). -/
def decodeTableWord (nbits w : Nat) : Option Instr :=
  match decodeWord Config.reference nbits w with
  | .ok i => some i
  | .error _ => none

/-! ## The encoder -/

/-- The command word `{op, arg}` (R78). -/
def cmdWord (op : BitVec 2) (arg : Word32) : CmdWord := op ++ arg

/-- The line or the frame word that stands for an instruction. SCAN, TX, LATCH_PULSE and FontRead have neither:
they are invoked only from inside other operations (R83). A host presents zero where `arg` is ignored (R81); COMPOSE's `arg` is `n mod 2^32` (R84). -/
def encode (cfg : Cfg) : Instr → Option Encoded
  | .nop => some (.line (.command (cmdWord 0b00 0)))
  | .compose n => some (.line (.command (cmdWord 0b01 (BitVec.ofInt 32 n))))
  | .publish => some (.line (.command (cmdWord 0b10 0)))
  | .poll now => some (.line (.command (cmdWord 0b11 now)))
  | .tick => some (.line .tick)
  | .reset => some (.line .reset)
  | .scan => none
  | .tx _ => none
  | .latchPulse => none
  | .fontRead _ => none
  | .frameDataRowFirst rb cb => some (.frame (rb ++ cb))
  | .frameDataColFirst rb cb => some (.frame (cb ++ rb))
  | .frameBlank => some (.frame cfg.blank)

end Sys2Proof
end

