-- ==== Sys2Proof/WellFormed.lean ====
section
/-! DEFINITION. Well-formed configurations (spec/00_scope.md R8), instructions (spec/30_encoding.md R73, R75, R80)
and scripts (spec/42_scanner.md R170). Each check is a Bool. -/

namespace Sys2Proof

/-- R8 (a): no glyph overflows the 8-column buffer. -/
def Cfg.glyphsFit (cfg : Cfg) : Bool :=
  decide (cfg.tensCol.val + 3 ≤ 8) && decide (cfg.onesCol.val + 3 ≤ 8) && decide (cfg.singleCol.val + 3 ≤ 8) &&
    decide (cfg.negMinusCol.val + 2 ≤ 8) && decide (cfg.negDigitCol.val + 3 ≤ 8)

/-- R8 (b): the glyphs of a group are separated by at least one blank column. -/
def Cfg.glyphsSeparated (cfg : Cfg) : Bool :=
  decide (cfg.tensCol.val + 4 ≤ cfg.onesCol.val) && decide (cfg.negMinusCol.val + 3 ≤ cfg.negDigitCol.val)

/-- R8 (c), R208: in TIMER mode a tick period is longer than a scan step, `TICK_DIV >= 102` in the reference timing. -/
def Cfg.noOverrun (cfg : Cfg) : Bool :=
  match cfg.scanMode with
  | .timer => decide (Config.scanCycles < cfg.tickDiv)
  | .polled => true

/-- R8 (d), R262: eight scan steps take less than 20 ms, by `T_TICK` or by `SCAN_INTERVAL` in the host clock's unit. -/
def Cfg.refreshFast (cfg : Cfg) : Bool :=
  match cfg.scanMode with
  | .timer => decide (8 * cfg.tTick < 20000000)
  | .polled => decide (8 * (cfg.scanInterval.toNat * cfg.hostUnit) < 20000000)

/-- A well-formed configuration (R8). -/
def Cfg.wf (cfg : Cfg) : Bool :=
  cfg.glyphsFit && cfg.glyphsSeparated && cfg.noOverrun && cfg.refreshFast

/-- The column byte selects exactly one column line (R75, R154). -/
def Cfg.selectsOne (cfg : Cfg) (cb : Byte) : Bool :=
  columns.any fun c => cb == cfg.colSelect c

/-- The integer fits the 32-bit operand of the command port (R80). -/
def fitsPort (n : Int) : Bool := decide (-2147483648 ≤ n) && decide (n ≤ 2147483647)

/-- A well-formed instruction: COMPOSE's operand fits the port (R80); a data word is laid out in the configuration's
byte order (R73) and selects exactly one column (R75, R77). -/
def Instr.wf (cfg : Cfg) : Instr → Bool
  | .compose n => fitsPort n
  | .frameDataRowFirst _ cb => cfg.rowFirst && cfg.selectsOne cb
  | .frameDataColFirst _ cb => !cfg.rowFirst && cfg.selectsOne cb
  | .nop => true
  | .publish => true
  | .poll _ => true
  | .tick => true
  | .reset => true
  | .scan => true
  | .tx _ => true
  | .latchPulse => true
  | .fontRead _ => true
  | .frameBlank => true

/-- A script the configuration admits: TICK does not exist in POLLED mode, and a script that contains it is refused
(R170, R172). -/
def scriptAdmitted (cfg : Cfg) (script : List Line) : Bool :=
  match cfg.scanMode with
  | .timer => true
  | .polled => script.all fun l => l != .tick

end Sys2Proof
end

