-- ==== Sys2Proof/Machine/State.lean ====
section
/-! DEFINITION. The state of the block as plain data (spec/10_state.md R20), the external chain (spec/60_exceptions.md
R220), the model's own bookkeeping, and the state after reset (R33, R240). -/

namespace Sys2Proof.Machine

/-- The three output pins (R27, R160). -/
inductive Pin where
  | data
  | clock
  | latch
  deriving DecidableEq, Repr

/-- A pin event `(pin, level)` (R28, R160). -/
structure PinEvent where
  pin : Pin
  level : Bool
  deriving DecidableEq, Repr

/-- The levels of the three pin registers (R27). -/
structure Pins where
  data : Bool
  clock : Bool
  latch : Bool
  deriving DecidableEq, Repr

/-- The external shift-register chain (R31, R220): `SR`, the 16 shift stages, and `OUT`, the 16 latched outputs. -/
structure Chain where
  sr : BitVec 16
  out : BitVec 16
  deriving DecidableEq, Repr

/-- The frame-buffer memory FB (R50, R52) as cells (key, byte): see `Memory.read`, `Memory.wf` (log 6). -/
abbrev Memory := List Host.Cell

/-- The state. `cfg` is the configuration record, which no step writes (R29, log 1); `script` is the order in which the agents
take their steps (R10, R61, log 3). Two fields are the model's own, none in every state of the block itself: `returned`, where
FontRead leaves its value (log 8), and `bench`, a frame word handed to the serial driver from outside the block (log 7). -/
structure State where
  cfg : Cfg
  mem : Memory
  liveSel : BufSel
  colLatch : Byte
  cursor : Column
  lastRefresh : Word32
  tickCnt : Nat
  pins : Pins
  trace : List PinEvent
  chain : Chain
  script : List Line
  returned : Option Byte
  bench : Option FrameWord
  deriving DecidableEq, Repr

/-- The block has no fault: every operation is total and no error state exists (R11, R200). No constructor, so no step can
answer a fault. -/
inductive Fault where
  deriving DecidableEq, Repr

/-- Why a step is refused (R200): these two, and an instruction without a meaning. All are safe: the machine stops where the
spec gives no behaviour. -/
inductive Refusal where
  /-- Raised by `exec` for an instruction that has no meaning yet. Safe. -/
  | notModelled (mnemonic : String)
  /-- Raised by `step`: the configuration is not well formed, and the block does not start (R8). Safe. -/
  | illFormedConfig
  /-- Raised by `step` and by TICK: the script uses TICK under SCAN_MODE = POLLED (R170, R172). Safe. -/
  | tickInPolledMode
  deriving DecidableEq, Repr

/-- The outcome of a step. -/
abbrev Result := Host.Outcome State Fault Refusal

/-- The state right after power-on with configuration `cfg` and power-on chain contents `sr`, `out`: every element of R20 at
its reset value, the trace empty, the chain as it powered up (R33, R222, R240, R243), nothing scheduled, nothing on the bench. -/
def State.powerOn (cfg : Cfg) (sr out : BitVec 16) : State where
  cfg := cfg
  mem := []
  liveSel := 0
  colLatch := 0x00
  cursor := 0
  lastRefresh := 0
  tickCnt := 0
  pins := ⟨false, false, false⟩
  trace := []
  chain := ⟨sr, out⟩
  script := []
  returned := none
  bench := none

/-- The machine right after reset, under the configuration of log 2 and with free chain contents (R222, log 4). -/
def State.reset : State := State.powerOn Config.reference (Config.powerOnChain 0) (Config.powerOnChain 1)

end Sys2Proof.Machine
end

