-- ==== Sys2Proof/Machine/Ops.lean ====
section
/-! DEFINITION. The shared operations: the frame-buffer memory (R52), pin events and their effect on the chain (R160, R221,
R222), TX and LATCH_PULSE (R161, R162), the entry and the end of a scan step (R151, R157, R205, R207), reset (R240), and the
fetch of the next operation. The block takes no exception (R200): the tick's entry `State.capture` and its end
`State.advance` stand in that place. -/

namespace Sys2Proof.Machine

/-! ## Frame-buffer memory -/

/-- What a cell that is not listed reads as: the reset contents of FB (R33, R240). -/
def Memory.unlisted : Byte := 0x00

/-- How many cells FB has: 2 buffers of 8 columns (R50). -/
def Memory.cells : Nat := 16

/-- Read the cell with key `a`. -/
def Memory.read : Memory → Nat → Byte
  | [], _ => Memory.unlisted
  | (k, v) :: m, a => if k = a then v else Memory.read m a

/-- Put a cell in its place among rising keys. -/
def Memory.insert : Memory → Nat → Byte → Memory
  | [], a, v => [(a, v)]
  | (k, w) :: m, a, v => if a < k then (a, v) :: (k, w) :: m else (k, w) :: Memory.insert m a v

/-- Write the cell with key `a`; writing what an unlisted cell reads as removes the entry. -/
def Memory.write (m : Memory) (a : Nat) (v : Byte) : Memory :=
  let rest := m.filter fun c => c.1 != a
  if v = Memory.unlisted then rest else Memory.insert rest a v

/-- The canonical form: keys strictly rising, every key a cell of FB, no entry equal to what an unlisted cell reads as. -/
def Memory.wf (m : Memory) : Bool :=
  decide (m.Pairwise fun c d => c.1 < d.1) && m.all fun c => decide (c.1 < Memory.cells) && c.2 != Memory.unlisted

/-- The key of `FB[b][c]`: the buffer bit and the 3-bit column side by side (R52, log 6). -/
def fbKey (b : BufSel) (c : Column) : Nat := b.toNat * 8 + c.toNat

/-- `FB[b][c]` (R21). -/
def State.fb (s : State) (b : BufSel) (c : Column) : Byte := Memory.read s.mem (fbKey b c)

/-- `FB[b][c] <- v` (R13). -/
def State.setFb (s : State) (b : BufSel) (c : Column) (v : Byte) : State :=
  { s with mem := Memory.write s.mem (fbKey b c) v }

/-- The byte of column `c` of a frame-buffer value (R72). -/
def colOf (buf : FrameBuf) (c : Column) : Byte := buf[c.toNat]'(by have := c.isLt; omega)

/-- `for c in 0..7: FB[b][c] <- buf[c]` (R129), on the memory. Irreducible, so that comparing two states never unfolds the eight
writes: `writeBuf_read` and `writeBuf_fb` of Laws/Memory.lean say all it does. -/
@[irreducible] def Memory.writeBuf (m : Memory) (b : BufSel) (buf : FrameBuf) : Memory :=
  columns.foldl (fun m c => Memory.write m (fbKey b c) (colOf buf c)) m

/-- The buffer `b` becomes `buf` (R129). -/
def State.writeBuf (s : State) (b : BufSel) (buf : FrameBuf) : State := { s with mem := Memory.writeBuf s.mem b buf }

/-! ## Pins and chain -/

/-- A shift: `SR <- {SR[14:0], DATA}` (R221). -/
def Chain.shift (ch : Chain) (d : Bool) : Chain := { ch with sr := BitVec.concat (ch.sr.setWidth 15) d }

/-- A latch: `OUT <- SR` (R222). -/
def Chain.load (ch : Chain) : Chain := { ch with out := ch.sr }

/-- The pin registers and the chain after one pin event: the chain shifts when CLOCK changes from 0 to 1 and loads its outputs
when LATCH changes from 0 to 1, and does nothing else (R160, R221, R222). -/
def wireStep (p : Pins) (ch : Chain) (e : PinEvent) : Pins × Chain :=
  match e.pin with
  | .data => ({ p with data := e.level }, ch)
  | .clock => ({ p with clock := e.level }, if !p.clock && e.level then ch.shift p.data else ch)
  | .latch => ({ p with latch := e.level }, if !p.latch && e.level then ch.load else ch)

/-- The pin registers and the chain after a list of pin events: they are functions of the trace (R28). -/
def replay (p : Pins) (ch : Chain) : List PinEvent → Pins × Chain
  | [] => (p, ch)
  | e :: es => replay (wireStep p ch e).1 (wireStep p ch e).2 es

/-- `pin <- level`: set the level, append the event to the trace (R13, R160); the chain reacts. -/
def State.pinEvent (s : State) (e : PinEvent) : State :=
  { s with
    pins := (wireStep s.pins s.chain e).1
    chain := (wireStep s.pins s.chain e).2
    trace := s.trace ++ [e] }

/-- Pin events in the order written (R160). Irreducible, so that comparing two states never unfolds a scan step: `drive_eq` of
Laws/State.lean says all it does, and the kernel evaluates it as it stands. -/
@[irreducible] def State.drive (s : State) (es : List PinEvent) : State := es.foldl State.pinEvent s

/-- The three pin events of one bit (R161). -/
def bitEvents (d : Bool) : List PinEvent := [⟨.data, d⟩, ⟨.clock, true⟩, ⟨.clock, false⟩]

/-- The 16 bit positions in the order of transmission, bit 15 first (R54, R161). -/
def bitOrder : List Nat := [15, 14, 13, 12, 11, 10, 9, 8, 7, 6, 5, 4, 3, 2, 1, 0]

/-- The 48 pin events of `TX(w)` (R161). -/
def txEvents (w : FrameWord) : List PinEvent := bitOrder.flatMap fun k => bitEvents (w.getLsbD k)

/-- The 2 pin events of `LATCH_PULSE()` (R162). -/
def latchEvents : List PinEvent := [⟨.latch, true⟩, ⟨.latch, false⟩]

/-- `TX(w)` (R161). -/
def State.tx (s : State) (w : FrameWord) : State := s.drive (txEvents w)

/-- `LATCH_PULSE()` (R162). -/
def State.latchPulse (s : State) : State := s.drive latchEvents

/-- One whole transmission: `TX(w)` then `LATCH_PULSE()` (R152, R156). -/
def State.transmit (s : State) (w : FrameWord) : State := (s.tx w).latchPulse

/-! ## The scan step's entry and end, reset -/

/-- The entry of a scan step: `col_latch <- FB[live_sel][cursor]`; nothing else is saved (R151, R205). -/
def State.capture (s : State) : State := { s with colLatch := s.fb s.liveSel s.cursor }

/-- The end of a scan step: `cursor <- (cursor + 1) mod 8` (R157, R207). -/
def State.advance (s : State) : State := { s with cursor := s.cursor + 1 }

/-- `RESET()` (R240): every element of R20 to its reset value and the trace empty. The chain is not reset (R243), the
configuration is fixed (R29), and what stands outside the block, the schedule and the bench, stays (log 14). -/
def State.resetBlock (s : State) : State :=
  { State.powerOn s.cfg s.chain.sr s.chain.out with script := s.script, bench := s.bench }

/-! ## The next operation -/

/-- The operation an idle script gives: in TIMER mode the scanner's TICK, which is enabled in every state (R170); in POLLED mode
a pass of the host's loop that does nothing (R133). See log 3. -/
def idleInstr (cfg : Cfg) : Instr :=
  match cfg.scanMode with
  | .timer => .tick
  | .polled => .nop

/-- The next operation and the state it runs in. In the block itself, where nothing is on the bench: the script's first line decoded
and taken off, or the idle operation (log 3). With a frame word on the bench: that word, taken off (log 7). -/
def State.fetch (s : State) : Instr × State :=
  match s.bench with
  | some w => (decodeFrame s.cfg w, { s with bench := none })
  | none =>
    match s.script with
    | [] => (idleInstr s.cfg, s)
    | l :: rest => (decodeLine l, { s with script := rest })

end Sys2Proof.Machine
end

