-- ==== Sys2Proof/Machine/Operands.lean ====
section
/-! DEFINITION. The operands of the compositor (spec/41_compositor.md R121 to R123, R131) on mathematical integers, and the
font's addresses given as numbers (spec/20_memory.md R51). -/

namespace Sys2Proof.Machine

/-- `clamp(n, lo, hi)` (R13). -/
def clamp (n lo hi : Int) : Int := if n < lo then lo else if n > hi then hi else n

/-- The number drawn: `m = clamp(n, -9, 99)` (R121). -/
def shownNumber (n : Int) : Int := clamp n Config.numMin Config.numMax

/-- `abs(n)` (R13). -/
def absInt (n : Int) : Int := if n < 0 then -n else n

/-- A digit's glyph index from a non-negative integer below 10; the quotients and remainders of R123 are below 10, so the
reduction changes none of them (log 16). -/
def digitOf (n : Int) : Fin 10 := Fin.ofNat 10 n.toNat

/-- The three layouts of R122, with the digits of R123. -/
inductive Layout where
  /-- `m >= 10`: tens digit and ones digit. -/
  | two (t o : Fin 10)
  /-- `0 <= m < 10`. -/
  | one (d : Fin 10)
  /-- `m < 0`: minus glyph and digit. -/
  | neg (d : Fin 10)
  deriving DecidableEq, Repr

/-- Case selection and digit decomposition of the clamped number (R122, R123). -/
def layoutOf (m : Int) : Layout :=
  if m ≥ 10 then .two (digitOf (m / 10)) (digitOf (m % 10))
  else if m ≥ 0 then .one (digitOf m)
  else .neg (digitOf (absInt m % 10))

/-- The font address with glyph index `g` and glyph column `k`; the minus glyph is index 10; no other address exists (R51,
R101). -/
def glyphCol? (g k : Nat) : Option GlyphCol :=
  if hg : g < 10 then
    if hk : k < 3 then some (.digit ⟨g, hg⟩ ⟨k, hk⟩) else none
  else if g = 10 then
    if hk : k < 2 then some (.minus ⟨k, hk⟩) else none
  else none

end Sys2Proof.Machine
end

