-- ==== Sys2Proof/Machine/Font.lean ====
section
/-! DEFINITION. The font table (spec/40_font.md): the lookup FontRead (R104) and the derivation of the reference font from
seven segments (R107). -/

namespace Sys2Proof.Machine

/-- `FontRead(g, k)` (R104): `FONT[g][k]` for a digit, `MINUS[k]` for the minus glyph. -/
def fontRead (cfg : Cfg) : GlyphCol → Byte
  | .digit d k => cfg.font[d][k]
  | .minus j => cfg.minus[j]

/-- Which of the seven segments of R107 a figure has. -/
structure Segments where
  a : Bool
  b : Bool
  c : Bool
  d : Bool
  e : Bool
  f : Bool
  g : Bool
  deriving DecidableEq, Repr

/-- The byte of a segment where it is present. -/
def segByte (present : Bool) (v : Byte) : Byte := if present then v else 0x00

/-- The three column bytes of a seven-segment figure (R107). -/
def Segments.glyph (s : Segments) : Vector Byte 3 :=
  let bars := segByte s.a 0x01 ||| segByte s.g 0x08 ||| segByte s.d 0x40
  #v[bars ||| segByte s.f 0x0F ||| segByte s.e 0x78, bars, bars ||| segByte s.b 0x0F ||| segByte s.c 0x78]

/-- The segment sets of the ten digits (R107). -/
def digitSegments : Vector Segments 10 := #v[
  ⟨true, true, true, true, true, true, false⟩, ⟨false, true, true, false, false, false, false⟩,
  ⟨true, true, false, true, true, false, true⟩, ⟨true, true, true, true, false, false, true⟩,
  ⟨false, true, true, false, false, true, true⟩, ⟨true, false, true, true, false, true, true⟩,
  ⟨true, false, true, true, true, true, true⟩, ⟨true, true, true, false, false, false, false⟩,
  ⟨true, true, true, true, true, true, true⟩, ⟨true, true, true, true, false, true, true⟩]

end Sys2Proof.Machine
end

