-- ==== Sys2Proof/Machine/Compositor.lean ====
section
/-! DEFINITION. The compositor (spec/41_compositor.md): the pure function `compose` (R120, R128). -/

namespace Sys2Proof.Machine

/-- The all-zero buffer (R127). -/
def blankBuf : FrameBuf := #v[0x00, 0x00, 0x00, 0x00, 0x00, 0x00, 0x00, 0x00]

/-- `for k in 0..2: buf[col + k] <- FontRead(d, k)` (R128). In a well-formed configuration every index is in 0..7 (R8); the
block does not start in another, and an index beyond 7 writes nothing (log 15). -/
def putDigit (cfg : Cfg) (col : Fin 8) (d : Fin 10) (buf : FrameBuf) : FrameBuf :=
  ([0, 1, 2] : List (Fin 3)).foldl (fun b k => b.setIfInBounds (col.val + k.val) (fontRead cfg (.digit d k))) buf

/-- `for j in 0..1: buf[col + j] <- FontRead(10, j)` (R128). -/
def putMinus (cfg : Cfg) (col : Fin 8) (buf : FrameBuf) : FrameBuf :=
  ([0, 1] : List (Fin 2)).foldl (fun b j => b.setIfInBounds (col.val + j.val) (fontRead cfg (.minus j))) buf

/-- The glyphs of a layout in an all-zero buffer (R124 to R127). -/
def drawLayout (cfg : Cfg) : Layout → FrameBuf
  | .two t o => putDigit cfg cfg.onesCol o (putDigit cfg cfg.tensCol t blankBuf)
  | .one d => putDigit cfg cfg.singleCol d blankBuf
  | .neg d => putDigit cfg cfg.negDigitCol d (putMinus cfg cfg.negMinusCol blankBuf)

/-- `compose(n)` (R128). -/
def compose (cfg : Cfg) (n : Int) : FrameBuf := drawLayout cfg (layoutOf (shownNumber n))

end Sys2Proof.Machine
end

