-- ==== Sys2Proof/Machine/Flags.lean ====
section
/-! DEFINITION. The block's one flag-like bit `live_sel` (spec/10_state.md R22) and the comparison that POLL makes
(spec/42_scanner.md R171, R173). There are no condition codes. -/

namespace Sys2Proof.Machine

/-- The staging buffer's index `1 - live_sel` (R22). -/
def State.stagingSel (s : State) : BufSel := 1 - s.liveSel

/-- `live_sel <- 1 - live_sel` (R132). -/
def State.swap (s : State) : State := { s with liveSel := 1 - s.liveSel }

/-- `elapsed = (now - last_refresh) mod 2^32` (R171, R173). -/
def elapsed (lastRefresh now : Word32) : Word32 := now - lastRefresh

/-- POLL performs a scan step: the mode is POLLED and `elapsed >= SCAN_INTERVAL`, unsigned (R171, R172, R173). -/
def State.pollDue (s : State) (now : Word32) : Bool :=
  match s.cfg.scanMode with
  | .timer => false
  | .polled => decide (s.cfg.scanInterval.toNat ≤ (elapsed s.lastRefresh now).toNat)

end Sys2Proof.Machine
end

