-- ==== Sys2Proof/Machine/Scanner.lean ====
section
/-! DEFINITION. The scan step (spec/42_scanner.md R150 to R158): SCAN as the spec's pseudocode, and the list of its pin
events. -/

namespace Sys2Proof.Machine

/-- `SCAN()` (R158): capture, blank, row and column pattern, data word, advance. -/
def State.scan (s : State) : State :=
  let s1 := s.capture
  let s2 := s1.transmit s1.cfg.blank
  let s3 := s2.transmit (s2.cfg.dataWord s2.colLatch s2.cursor)
  s3.advance

/-- The 100 pin events of a scan step that captured `v` at column `c` (R158, R165). -/
def scanEvents (cfg : Cfg) (v : Byte) (c : Column) : List PinEvent :=
  txEvents cfg.blank ++ latchEvents ++ (txEvents (cfg.dataWord v c) ++ latchEvents)

/-- What POLL does (R171): a scan step and `last_refresh <- now` when it is due, else nothing. -/
def State.poll (s : State) (now : Word32) : State :=
  if s.pollDue now then { s.scan with lastRefresh := now } else s

end Sys2Proof.Machine
end

