-- ==== Sys2Proof/Machine/Commands.lean ====
section
/-! DEFINITION. The meanings of the host's commands NOP, COMPOSE, PUBLISH, POLL (R129, R132, R133, R171). -/

namespace Sys2Proof.Machine

/-- `COMPOSE n`: all 8 bytes of the staging buffer, nothing else (R129). -/
def State.composeInto (s : State) (n : Int) : State := s.writeBuf s.stagingSel (compose s.cfg n)

/-- NOP: nothing (R133). -/
def execNop (s : State) : Result := .next s

/-- COMPOSE (R129). -/
def execCompose (n : Int) (s : State) : Result := .next (s.composeInto n)

/-- PUBLISH (R132). -/
def execPublish (s : State) : Result := .next s.swap

/-- POLL (R171, R172). -/
def execPoll (now : Word32) (s : State) : Result := .next (s.poll now)

end Sys2Proof.Machine
end

