-- ==== Sys2Proof/Machine/Events.lean ====
section
/-! DEFINITION. The meanings of the events TICK and RESET (R170, R240). -/

namespace Sys2Proof.Machine

/-- TICK: a scan step in TIMER mode; it does not exist in POLLED mode, where it is refused (R170, R172). -/
def execTick (s : State) : Result :=
  match s.cfg.scanMode with
  | .timer => .next s.scan
  | .polled => .refused .tickInPolledMode

/-- RESET (R240). -/
def execReset (s : State) : Result := .next s.resetBlock

end Sys2Proof.Machine
end

