-- ==== Sys2Proof/Machine/Frames.lean ====
section
/-! DEFINITION. The meanings of the frame words (R73, R76): each is transmitted and latched (R152, R156). -/

namespace Sys2Proof.Machine

/-- The data word `{rb, cb}` (R73, R155, R156). -/
def execFrameDataRowFirst (rb cb : Byte) (s : State) : Result := .next (s.transmit (rb ++ cb))

/-- The data word `{cb, rb}` (R73, R155, R156). -/
def execFrameDataColFirst (rb cb : Byte) (s : State) : Result := .next (s.transmit (cb ++ rb))

/-- The blank word (R76, R152). -/
def execFrameBlank (s : State) : Result := .next (s.transmit s.cfg.blank)

end Sys2Proof.Machine
end

