-- ==== Sys2Proof/Machine/Micro.lean ====
section
/-! DEFINITION. The meanings of the operations that are invoked only from inside others (R83): SCAN, TX, LATCH_PULSE,
FontRead. -/

namespace Sys2Proof.Machine

/-- SCAN (R158). -/
def execScan (s : State) : Result := .next s.scan

/-- TX (R161). -/
def execTx (w : FrameWord) (s : State) : Result := .next (s.tx w)

/-- LATCH_PULSE (R162). -/
def execLatchPulse (s : State) : Result := .next s.latchPulse

/-- FontRead (R104): it writes none of the block's state; the value it returns is left in the model's own `returned` (log 8). -/
def execFontRead (g : GlyphCol) (s : State) : Result := .next { s with returned := some (fontRead s.cfg g) }

end Sys2Proof.Machine
end

