-- ==== Sys2Proof/Machine/Dispatch.lean ====
section
/-! DEFINITION. The dispatch: one arm per constructor of `Instr`. -/

namespace Sys2Proof.Machine

def exec (i : Instr) (s : State) : Host.Outcome State Fault Refusal :=
  match i with
  | .nop => Sys2Proof.Machine.execNop s
  | .compose n => Sys2Proof.Machine.execCompose n s
  | .publish => Sys2Proof.Machine.execPublish s
  | .poll now => Sys2Proof.Machine.execPoll now s
  | .tick => Sys2Proof.Machine.execTick s
  | .reset => Sys2Proof.Machine.execReset s
  | .scan => Sys2Proof.Machine.execScan s
  | .tx w => Sys2Proof.Machine.execTx w s
  | .latchPulse => Sys2Proof.Machine.execLatchPulse s
  | .fontRead g => Sys2Proof.Machine.execFontRead g s
  | .frameDataRowFirst rb cb => Sys2Proof.Machine.execFrameDataRowFirst rb cb s
  | .frameDataColFirst rb cb => Sys2Proof.Machine.execFrameDataColFirst rb cb s
  | .frameBlank => Sys2Proof.Machine.execFrameBlank s

end Sys2Proof.Machine
end

