-- ==== Sys2Proof/Machine/Step.lean ====
section
/-! DEFINITION. One step of the machine: an ill-formed configuration and a script with a TICK in POLLED mode are refused (R8,
R170); otherwise the next operation runs (R10). -/

namespace Sys2Proof.Machine

def step (s : State) : Host.Outcome State Fault Refusal :=
  if s.cfg.wf = false then .refused .illFormedConfig
  else if scriptAdmitted s.cfg s.script = false then .refused .tickInPolledMode
  else exec s.fetch.1 s.fetch.2

/-- The state whose next step runs the word of `nbits` bits given as the number `w`, read as the table numbers it: a command word
is one more line before the script, a frame word goes on the bench (log 3, log 7). A number that is no word of a format
changes nothing. -/
def State.withFetchWord (s : State) (nbits w : Nat) : State :=
  match encodedOfWord nbits w with
  | .ok (.line l) => { s with script := l :: s.script, bench := none }
  | .ok (.frame f) => { s with bench := some f }
  | .error _ => s

end Sys2Proof.Machine
end

