-- ==== Sys2Proof/Machine/Clock.lean ====
section
/-! DEFINITION. The clock level: the ports of spec/00_scope.md R15, the tick timer of spec/60_exceptions.md R211 and the
reference timing of spec/70_reset_and_hazards.md R260, R261. One `edge` is one rising edge of `clk`. No operation's meaning
depends on this file (R9); a claim says that every edge refines whole operations. -/

namespace Sys2Proof.Machine.Clock

/-- The input ports (R15). -/
structure Ports where
  rst : Bool
  cmdValid : Bool
  cmdOp : BitVec 2
  cmdArg : Word32
  deriving DecidableEq, Repr

/-- The output ports (R15). -/
structure Outs where
  cmdReady : Bool
  serData : Bool
  serClock : Bool
  serLatch : Bool
  deriving DecidableEq, Repr

/-- The block between two clock edges. -/
structure Core where
  /-- The architectural state. -/
  arch : State
  /-- The pin events of the scan step in progress that are still to come. -/
  inFlight : List PinEvent
  /-- For how many cycles `cmd_ready` stays low. -/
  hold : Nat
  /-- Cycles since power-on. -/
  cycle : Nat
  deriving DecidableEq, Repr

/-- No reset and no command presented. -/
def idlePorts : Ports := ⟨false, false, 0, 0⟩

/-- `cmd_ready` (R15, R261). -/
def Core.ready (c : Core) : Bool := c.hold == 0

/-- The output ports (R15): the pins are registers. -/
def Core.outs (c : Core) : Outs := ⟨c.ready, c.arch.pins.data, c.arch.pins.clock, c.arch.pins.latch⟩

/-- One pin event per cycle; the last one ends the scan step (R207, R260). -/
def Core.driveOne (c : Core) : Core :=
  match c.inFlight with
  | [] => c
  | [e] => { c with arch := (c.arch.pinEvent e).advance, inFlight := [] }
  | e :: es => { c with arch := c.arch.pinEvent e, inFlight := es }

/-- The capture cycle of a scan step (R151, R205, R260). DESIGN CHOICE (log 15): in an ill-formed TIMER configuration, which the spec
refuses (R8) and the clock level does not check, a tick can fire while a scan step is in progress, for which R208 gives no
behaviour; here the new step then takes the place of what is left of the old one. -/
def Core.start (c : Core) : Core :=
  { c with
    arch := c.arch.capture
    inFlight := scanEvents c.arch.cfg c.arch.capture.colLatch c.arch.cursor }

/-- The tick timer fires on this edge: `tick_cnt` wraps to 0 (R26, R211). -/
def Core.fires (c : Core) : Bool :=
  match c.arch.cfg.scanMode with
  | .timer => decide (c.arch.cfg.tickDiv ≤ c.arch.tickCnt + 1)
  | .polled => false

/-- The tick timer: it counts `0 .. TICK_DIV - 1` and starts a scan step on each wrap; it exists in TIMER mode only (R26, R211). -/
def Core.timer (c : Core) : Core :=
  match c.arch.cfg.scanMode with
  | .timer =>
    if c.fires then Core.start { c with arch := { c.arch with tickCnt := 0 } }
    else { c with arch := { c.arch with tickCnt := c.arch.tickCnt + 1 } }
  | .polled => c

/-- A cycle of a low `cmd_ready` passes. -/
def Core.waitOne (c : Core) : Core := { c with hold := c.hold - 1 }

/-- A command taken on this edge takes effect on it (R261): NOP, PUBLISH and a POLL that does not scan take one cycle; COMPOSE
holds `cmd_ready` low for up to 8 further cycles (a free value, log 12); a POLL that scans holds it low for the 101 cycles of
the scan step it starts. -/
def Core.accept (c : Core) (w : CmdWord) : Core :=
  match decodeCommand w with
  | .compose n => { c with arch := c.arch.composeInto n, hold := (Config.composeHold c.cycle).val }
  | .publish => { c with arch := c.arch.swap }
  | .poll now =>
    if c.arch.pollDue now then
      { Core.start { c with arch := { c.arch with lastRefresh := now } } with hold := Config.scanCycles }
    else c
  | .nop => c
  | .tick => c
  | .reset => c
  | .scan => c
  | .tx _ => c
  | .latchPulse => c
  | .fontRead _ => c
  | .frameDataRowFirst _ _ => c
  | .frameDataColFirst _ _ => c
  | .frameBlank => c

/-- A command is taken when `cmd_valid` and `cmd_ready` are both 1 (R15). -/
def Core.takes (c : Core) (p : Ports) : Bool := p.cmdValid && c.ready

/-- Reset, synchronous and active high (R240): a scan step in progress is abandoned and the chain keeps what it holds. -/
def Core.resetEdge (c : Core) : Core := { c with arch := c.arch.resetBlock, inFlight := [], hold := 0 }

/-- One rising clock edge. The tick comes before a command taken on the same edge (R204, D23). DESIGN CHOICE (log 18): on an edge with
`rst` RESET alone takes effect; a command presented on it, though `cmd_ready` may show 1, and a tick or a pin event due on it are
dropped: R204 orders only tick and command. -/
def edge (p : Ports) (c : Core) : Core :=
  let c' :=
    if p.rst then c.resetEdge
    else
      let c1 := c.driveOne.timer
      if c.takes p then c1.accept (cmdWord p.cmdOp p.cmdArg) else c1.waitOne
  { c' with cycle := c.cycle + 1 }

/-- The edges of a list of port values. -/
def edges (ps : List Ports) (c : Core) : Core := ps.foldl (fun c p => edge p c) c

/-- Power-on (R240, R241): the architectural state `s`, nothing in progress, ready to accept commands. -/
def Core.idle (s : State) : Core := ⟨s, [], 0, 0⟩

/-- The operation-level view of a clock-level state: a scan step in progress counts as done, since nothing a command does can
be told apart from doing it after the step (R261). -/
def Core.finish (c : Core) : State :=
  if c.inFlight = [] then c.arch else (c.arch.drive c.inFlight).advance

/-- What holds between edges in a well-formed configuration: a scan step in progress ends before the next one can start, in
TIMER mode by the tick period (R208), in POLLED mode because `cmd_ready` is low (R261). -/
def Core.inv (c : Core) : Prop :=
  match c.arch.cfg.scanMode with
  | .timer =>
    c.arch.tickCnt < c.arch.cfg.tickDiv ∧ (c.inFlight = [] ∨ c.inFlight.length + c.arch.tickCnt ≤ 100)
  | .polled => c.inFlight.length ≤ c.hold

end Sys2Proof.Machine.Clock
end

