-- ==== Sys2Proof/Machine/Matrix.lean ====
section
/-! DEFINITION. What the chain's outputs show (spec/60_exceptions.md R223, R224): the lines, the LEDs, and the words latched
along a list of pin events. -/

namespace Sys2Proof.Machine

/-- Row line `i` is active (R223, R224). -/
def rowActive (cfg : Cfg) (out : FrameWord) (i : Fin 8) : Bool := (cfg.rowByte out).getLsbD i.val ^^ cfg.rowActiveLow

/-- Column line `c` is active (R223, R224). -/
def colActive (cfg : Cfg) (out : FrameWord) (c : Column) : Bool := (cfg.colByte out).getLsbD c.toNat ^^ cfg.colActiveLow

/-- `lit(i, c)`: LED `(i, c)` is lit exactly when row line `i` and column line `c` are both active (R224). -/
def lit (cfg : Cfg) (out : FrameWord) (i : Fin 8) (c : Column) : Bool := rowActive cfg out i && colActive cfg out c

/-- The values OUT takes along a list of pin events, one per rising LATCH (R222). -/
def latchedWords (p : Pins) (ch : Chain) : List PinEvent → List FrameWord
  | [] => []
  | e :: es =>
    if e.pin = .latch ∧ p.latch = false ∧ e.level = true then
      (wireStep p ch e).2.out :: latchedWords (wireStep p ch e).1 (wireStep p ch e).2 es
    else latchedWords (wireStep p ch e).1 (wireStep p ch e).2 es

end Sys2Proof.Machine
end

