-- ==== Sys2Proof/Machine/Script.lean ====
section
/-! DEFINITION. The script syntax and its pseudo-operations (spec/30_encoding.md R84, R85): the spec's assembler, from lines of
characters to script lines. Spacing, letter case and errors are the model's reading (log 17). -/

namespace Sys2Proof.Machine

/-- One operation or pseudo-operation of a script (R84, R85). -/
inductive ScriptOp where
  | reset
  | nop
  | compose (n : Int)
  | publish
  | poll (now : Word32)
  | tick
  | display (n : Int)
  | ticks (k : Nat)
  | cycle
  deriving DecidableEq, Repr

/-- The command word of `COMPOSE <n>`: `arg = n mod 2^32` (R84). -/
def composeLine (n : Int) : Line := .command (cmdWord 0b01 (BitVec.ofInt 32 n))

/-- The command word of `PUBLISH` (R84). -/
def publishLine : Line := .command (cmdWord 0b10 0)

/-- The lines an operation stands for: its encoding (R84), or a pseudo-operation's expansion (R85). `SHOW n` is `display n`. -/
def ScriptOp.lines : ScriptOp → List Line
  | .reset => [.reset]
  | .nop => [.command (cmdWord 0b00 0)]
  | .compose n => [composeLine n]
  | .publish => [publishLine]
  | .poll now => [.command (cmdWord 0b11 now)]
  | .tick => [.tick]
  | .display n => [composeLine n, publishLine]
  | .ticks k => List.replicate k .tick
  | .cycle => List.replicate 8 .tick

/-- A whole script (R84). -/
def assemble (ops : List ScriptOp) : List Line := ops.flatMap ScriptOp.lines

/-! ## Text -/

/-- Why a line is no script line. -/
inductive ScriptError where
  /-- No operation has this form (R84, R85). -/
  | unknownOperation
  /-- An operand is no integer of R84, or out of the operation's range. -/
  | badOperand
  deriving DecidableEq, Repr

/-- The value of a decimal digit. -/
def decDigit (c : Char) : Option Nat :=
  if '0' ≤ c ∧ c ≤ '9' then some (c.toNat - '0'.toNat) else none

/-- The value of a hexadecimal digit, either case. -/
def hexDigit (c : Char) : Option Nat :=
  if 'a' ≤ c ∧ c ≤ 'f' then some (c.toNat - 'a'.toNat + 10)
  else if 'A' ≤ c ∧ c ≤ 'F' then some (c.toNat - 'A'.toNat + 10)
  else decDigit c

/-- Digits in a base, most significant first, onto what is already read. -/
def readDigits (base : Nat) (digit : Char → Option Nat) : Nat → List Char → Option Nat
  | acc, [] => some acc
  | acc, c :: cs =>
    match digit c with
    | some d => readDigits base digit (acc * base + d) cs
    | none => none

/-- A number without a sign: decimal, or hexadecimal with `0x` (R84). -/
def readNat : List Char → Option Nat
  | [] => none
  | ['0', 'x'] => none
  | '0' :: 'x' :: c :: cs => readDigits 16 hexDigit 0 (c :: cs)
  | cs => readDigits 10 decDigit 0 cs

/-- An integer: a number, or a decimal with a leading `-` (R84). -/
def readInt : List Char → Option Int
  | [] => none
  | ['-'] => none
  | '-' :: c :: cs => (readDigits 10 decDigit 0 (c :: cs)).map fun n => -(n : Int)
  | cs => (readNat cs).map fun n => (n : Int)

/-- The words of a line: runs of characters between blanks, up to the comment sign (R84). -/
def wordsOf : List Char → List Char → List (List Char)
  | word, [] => if word = [] then [] else [word.reverse]
  | word, c :: cs =>
    if c = '#' then (if word = [] then [] else [word.reverse])
    else if c = ' ' then (if word = [] then wordsOf [] cs else word.reverse :: wordsOf [] cs)
    else wordsOf (c :: word) cs

/-- An operand read, or its error. -/
def withOperand {α : Type} (v : Option α) (op : α → ScriptOp) : Except ScriptError (Option ScriptOp) :=
  match v with
  | some a => .ok (some (op a))
  | none => .error .badOperand

/-- POLL's operand is an unsigned 32-bit number (R80). -/
def readTime (cs : List Char) : Option Word32 :=
  match readNat cs with
  | some n => if n < 2 ^ 32 then some (BitVec.ofNat 32 n) else none
  | none => none

/-- One line of text: nothing (blank or comment), an operation, or an error. -/
def parseLine (cs : List Char) : Except ScriptError (Option ScriptOp) :=
  match wordsOf [] cs with
  | [] => .ok none
  | [['R', 'E', 'S', 'E', 'T']] => .ok (some .reset)
  | [['N', 'O', 'P']] => .ok (some .nop)
  | [['P', 'U', 'B', 'L', 'I', 'S', 'H']] => .ok (some .publish)
  | [['T', 'I', 'C', 'K']] => .ok (some .tick)
  | [['C', 'Y', 'C', 'L', 'E']] => .ok (some .cycle)
  | [['C', 'O', 'M', 'P', 'O', 'S', 'E'], n] => withOperand (readInt n) .compose
  | [['P', 'O', 'L', 'L'], now] => withOperand (readTime now) .poll
  | [['S', 'H', 'O', 'W'], n] => withOperand (readInt n) .display
  | [['T', 'I', 'C', 'K', 'S'], k] => withOperand (readNat k) .ticks
  | _ => .error .unknownOperation

/-- A script text, one line of characters per line. -/
def parseScript : List (List Char) → Except ScriptError (List ScriptOp)
  | [] => .ok []
  | l :: ls =>
    match parseLine l, parseScript ls with
    | .ok (some op), .ok ops => .ok (op :: ops)
    | .ok none, .ok ops => .ok ops
    | .error e, _ => .error e
    | _, .error e => .error e

end Sys2Proof.Machine
end

