-- ==== Sys2Proof/Safety.lean ====
section
/-! DEFINITION. What a safe run of the display is, in the terms the claims use: the latch discipline of
spec/42_scanner.md R164, the shape of the trace (R165, R174, R227), whole frames (spec/20_memory.md R58, R62), and the
invariant that every step keeps. -/

namespace Sys2Proof.Machine

/-- How many `CLOCK <- 1` events stand before each `LATCH <- 1` event since the one before it, `n` of them being already
counted (R164). -/
def latchGaps : Nat → List PinEvent → List Nat
  | _, [] => []
  | n, e :: es =>
    if e = ⟨.clock, true⟩ then latchGaps (n + 1) es
    else if e = ⟨.latch, true⟩ then n :: latchGaps 0 es
    else latchGaps n es

/-- The pin events of whole scan steps that captured the bytes of a list, from column `c` on (R158, R174). -/
def scanTrace (cfg : Cfg) (c : Column) : List Byte → List PinEvent
  | [] => []
  | v :: vs => scanEvents cfg v c ++ scanTrace cfg (c + 1) vs

/-- `k` scan steps one after the other (R174). -/
def State.scans (s : State) : Nat → State
  | 0 => s
  | k + 1 => (s.scan).scans k

/-- Buffer `b` holds a whole frame: all zero, or one `compose` result in all 8 bytes (R58, R62). -/
def State.wholeFrame (s : State) (b : BufSel) : Prop :=
  (∀ c, s.fb b c = 0x00) ∨ ∃ n, ∀ c, s.fb b c = colOf (compose s.cfg n) c

/-- What the pins and the chain hold after the scan steps of a list of bytes: nothing is said of the chain before the first one
(R222), and after it the chain holds the last data word (R163, R225, R227). -/
def State.showsLast (s : State) (vs : List Byte) : Prop :=
  match vs.getLast? with
  | none => s.pins.data = false
  | some v =>
    s.chain.sr = s.cfg.dataWord v (s.cursor - 1) ∧ s.chain.out = s.cfg.dataWord v (s.cursor - 1) ∧
      s.pins.data = (s.cfg.dataWord v (s.cursor - 1)).getLsbD 0

/-- The invariant of the operation level: the memory is in canonical form, nothing is on the bench (log 7),
`tick_cnt` is below `TICK_DIV` (R26), CLOCK and LATCH are low between operations (R27, R163), both buffers hold whole frames
(R62), and the trace is whole scan steps of the columns 0, 1, 2, … in turn, the last of which left the cursor, the captured
byte, the pins and the chain as they are (R163, R164, R174, R227). -/
structure State.Inv (s : State) : Prop where
  memory : Memory.wf s.mem = true
  benchIdle : s.bench = none
  timer : s.cfg.scanMode = .timer → s.tickCnt < s.cfg.tickDiv
  pinsLow : s.pins.clock = false ∧ s.pins.latch = false
  frames : ∀ b, s.wholeFrame b
  trace : ∃ vs : List Byte, s.trace = scanTrace s.cfg 0 vs ∧ s.cursor = BitVec.ofNat 3 vs.length ∧
    s.colLatch = vs.getLast?.getD 0x00 ∧ s.showsLast vs

end Sys2Proof.Machine
end

