-- ==== Sys2Proof/Certificates/Slice0/Obligations.lean ====
section
/-! DEFINITION. The statements for the provers, one `def Obligations.<Name> : Prop` each; the docstring names the rule of
spec/ that it formalises. A statement about a state holds for every configuration, since the configuration is a field of the
state (log 1). -/

open Sys2Proof Sys2Proof.Machine

/-! ## Reset -/

/-- R33: what `State.reset` holds in every element of R20, and the empty trace. -/
def Obligations.ResetStateHoldsTheResetColumn : Prop :=
  (∀ b c, State.reset.fb b c = 0x00) ∧ State.reset.liveSel = 0 ∧ State.reset.colLatch = 0x00 ∧ State.reset.cursor = 0 ∧
    State.reset.lastRefresh = 0 ∧ State.reset.tickCnt = 0 ∧ State.reset.pins = ⟨false, false, false⟩ ∧
    State.reset.trace = []

/-- R240, R243: RESET completes in every state and writes every element of the block, restarts the trace, and leaves the chain
and the configuration as they are. -/
def Obligations.ResetEventClearsTheBlockAndKeepsTheChain : Prop :=
  ∀ s : State, ∃ t, exec .reset s = .next t ∧ (∀ b c, t.fb b c = 0x00) ∧ t.liveSel = 0 ∧ t.colLatch = 0x00 ∧
    t.cursor = 0 ∧ t.lastRefresh = 0 ∧ t.tickCnt = 0 ∧ t.pins = ⟨false, false, false⟩ ∧ t.trace = [] ∧
    t.chain = s.chain ∧ t.cfg = s.cfg

/-! ## Commands -/

/-- R133: every command word with `op = 0b00` is NOP, and NOP completes and leaves every state element as it was. -/
def Obligations.NopLeavesEveryStateElementAsItWas : Prop :=
  ∀ (arg : Word32) (s : State), decodeCommand ((0b00 : BitVec 2) ++ arg) = .nop ∧ exec .nop s = .next s

/-- R129: the command word `{0b01, arg}` is COMPOSE of `arg` as two's complement; COMPOSE completes in every state for every
integer; all 8 bytes of the staging buffer become `compose(n)`; every other cell and every other element is unchanged. -/
def Obligations.ComposeWritesTheStagingBufferOnly : Prop :=
  (∀ arg : Word32, decodeCommand ((0b01 : BitVec 2) ++ arg) = .compose arg.toInt) ∧
  ∀ (n : Int) (s : State), ∃ m : Memory,
    exec (.compose n) s = .next { s with mem := m } ∧
    (∀ c, Memory.read m (fbKey (1 - s.liveSel) c) = colOf (compose s.cfg n) c) ∧
    (∀ a, (∀ c, a ≠ fbKey (1 - s.liveSel) c) → Memory.read m a = Memory.read s.mem a) ∧
    (∀ c, Memory.read m (fbKey s.liveSel c) = Memory.read s.mem (fbKey s.liveSel c))

/-- R132: every command word with `op = 0b10` is PUBLISH, which completes, writes `live_sel` only, exchanges live and staging, and
two of them cancel. -/
def Obligations.PublishExchangesLiveAndStaging : Prop :=
  (∀ arg : Word32, decodeCommand ((0b10 : BitVec 2) ++ arg) = .publish) ∧
  ∀ s : State, ∃ t, exec .publish s = .next t ∧ t = { s with liveSel := 1 - s.liveSel } ∧
    (∀ c, t.fb t.liveSel c = s.fb (1 - s.liveSel) c ∧ t.fb (1 - t.liveSel) c = s.fb s.liveSel c) ∧
    exec .publish t = .next s

/-- R171: the command word `{0b11, now}` is POLL of `now`; in POLLED mode POLL performs one SCAN and sets `last_refresh` when the
elapsed time, modulo `2^32`, is at least the interval, and nothing otherwise; in TIMER mode it does nothing. -/
def Obligations.PollScansOnceWhenTheIntervalHasElapsed : Prop :=
  ∀ (now : Word32) (s : State),
    decodeCommand ((0b11 : BitVec 2) ++ now) = .poll now ∧
    (s.cfg.scanMode = .polled →
      s.cfg.scanInterval.toNat ≤ (now.toNat + 2 ^ 32 - s.lastRefresh.toNat) % 2 ^ 32 →
      ∃ t, exec .scan s = .next t ∧ exec (.poll now) s = .next { t with lastRefresh := now }) ∧
    (s.cfg.scanMode = .polled →
      (now.toNat + 2 ^ 32 - s.lastRefresh.toNat) % 2 ^ 32 < s.cfg.scanInterval.toNat → exec (.poll now) s = .next s) ∧
    (s.cfg.scanMode = .timer → exec (.poll now) s = .next s)

/-- R173: the comparison is right across one wrap of the host's clock: with true times less than `2^32` units apart, POLL scans
exactly when the interval has passed. -/
def Obligations.PollIsRightAcrossAWrapOfTheHostClock : Prop :=
  ∀ (s : State) (last now : Nat), s.cfg.scanMode = .polled → s.lastRefresh = BitVec.ofNat 32 last → last ≤ now →
    now - last < 2 ^ 32 →
    (s.cfg.scanInterval.toNat ≤ now - last →
      exec (.poll (BitVec.ofNat 32 now)) s = .next { s.scan with lastRefresh := BitVec.ofNat 32 now }) ∧
    (now - last < s.cfg.scanInterval.toNat → exec (.poll (BitVec.ofNat 32 now)) s = .next s)

/-- R172: POLL in TIMER mode does nothing, where TICK scans; TICK in POLLED mode cannot occur (it is refused, R170), where a POLL
that is due scans: one mechanism per configuration. -/
def Obligations.OnlyTheModesOwnMechanismStartsScanSteps : Prop :=
  ∀ (now : Word32) (s : State),
    (s.cfg.scanMode = .timer → exec (.poll now) s = .next s ∧ ∃ t, exec .tick s = .next t ∧ t.cursor = s.cursor + 1) ∧
    (s.cfg.scanMode = .polled → exec .tick s = .refused .tickInPolledMode ∧
      (s.cfg.scanInterval.toNat ≤ (now.toNat + 2 ^ 32 - s.lastRefresh.toNat) % 2 ^ 32 →
        ∃ t, exec (.poll now) s = .next t ∧ t.cursor = s.cursor + 1))

/-- R82: every command word decodes to an operation that completes in every state; none traps; a POLL presented in TIMER mode has no
effect. -/
def Obligations.EveryCommandWordCompletes : Prop :=
  ∀ (w : CmdWord) (s : State), ∃ t, exec (decodeCommand w) s = .next t ∧
    (cmdOp w = 0b11 → s.cfg.scanMode = .timer → t = s)

/-! ## The scan step -/

/-- R170: in TIMER mode TICK completes and is SCAN. -/
def Obligations.TickIsAScanStepInTimerMode : Prop :=
  ∀ s : State, s.cfg.scanMode = .timer → ∃ t, exec .scan s = .next t ∧ exec .tick s = .next t

/-- R158, with R151 to R157 and R221, R222 for the chain: all that SCAN does, from every state. -/
def Obligations.ScanBlanksTransmitsAndAdvances : Prop :=
  ∀ s : State,
    let v := s.fb s.liveSel s.cursor
    let rmask : Byte := if s.cfg.rowActiveLow then 0xFF else 0x00
    let cmask : Byte := if s.cfg.colActiveLow then 0xFF else 0x00
    let rb := v ^^^ rmask
    let cb := (1#8 <<< s.cursor.toNat) ^^^ cmask
    let blank : FrameWord := if s.cfg.rowFirst then rmask ++ cmask else cmask ++ rmask
    let w : FrameWord := if s.cfg.rowFirst then rb ++ cb else cb ++ rb
    exec .scan s = .next { s with
      colLatch := v
      cursor := BitVec.ofNat 3 ((s.cursor.toNat + 1) % 8)
      pins := ⟨w.getLsbD 0, false, false⟩
      chain := ⟨w, w⟩
      trace := s.trace ++ (txEvents blank ++ latchEvents ++ txEvents w ++ latchEvents) }

/-- R161, R221: TX completes from every state; its 48 pin events are, for each bit from 15 down to 0, DATA at the bit, CLOCK up,
CLOCK down; OUT is unchanged, and while CLOCK was low before, `SR = w` after. -/
def Obligations.TxShiftsTheWordMostSignificantBitFirst : Prop :=
  ∀ (w : FrameWord) (s : State), ∃ (es : List PinEvent) (sr : BitVec 16),
    exec (.tx w) s = .next { s with
      pins := ⟨w.getLsbD 0, false, s.pins.latch⟩, chain := ⟨sr, s.chain.out⟩, trace := s.trace ++ es } ∧
    es.length = 48 ∧
    (∀ k < 16, es[3 * k]? = some ⟨.data, w.getLsbD (15 - k)⟩ ∧ es[3 * k + 1]? = some ⟨.clock, true⟩ ∧
      es[3 * k + 2]? = some ⟨.clock, false⟩) ∧
    (s.pins.clock = false → sr = w)

/-- R162, R222: LATCH_PULSE completes from every state, appends its two events, leaves DATA and CLOCK, and loads all 16 outputs at
once when LATCH was low before. -/
def Obligations.LatchPulseLoadsAllOutputsAtOnce : Prop :=
  ∀ s : State, exec .latchPulse s = .next { s with
    pins := ⟨s.pins.data, s.pins.clock, false⟩
    chain := ⟨s.chain.sr, if s.pins.latch then s.chain.out else s.chain.sr⟩
    trace := s.trace ++ [⟨.latch, true⟩, ⟨.latch, false⟩] }

/-- R160, R221, R222: one pin event sets its pin and is appended to the trace; the chain shifts on a rising CLOCK, loads on a
rising LATCH, and does nothing on any other event. -/
def Obligations.PinEventsMoveTheChainOnRisingEdgesOnly : Prop :=
  ∀ (s : State) (l : Bool),
    s.pinEvent ⟨.data, l⟩ = { s with pins := ⟨l, s.pins.clock, s.pins.latch⟩, trace := s.trace ++ [⟨.data, l⟩] } ∧
    s.pinEvent ⟨.clock, l⟩ = { s with
      pins := ⟨s.pins.data, l, s.pins.latch⟩
      trace := s.trace ++ [⟨.clock, l⟩]
      chain := ⟨if s.pins.clock = false ∧ l = true then
        BitVec.ofNat 16 ((s.chain.sr.toNat * 2 + s.pins.data.toNat) % 2 ^ 16) else s.chain.sr, s.chain.out⟩ } ∧
    s.pinEvent ⟨.latch, l⟩ = { s with
      pins := ⟨s.pins.data, s.pins.clock, l⟩
      trace := s.trace ++ [⟨.latch, l⟩]
      chain := ⟨s.chain.sr, if s.pins.latch = false ∧ l = true then s.chain.sr else s.chain.out⟩ }

/-- R104: FontRead completes at every address of the font, returns the byte of the font there, and writes no state of the block.
Where the byte is left is the model's choice (log 8). -/
def Obligations.FontReadReturnsTheFontByte : Prop :=
  ∀ s : State,
    (∀ (d : Fin 10) (k : Fin 3), exec (.fontRead (.digit d k)) s = .next { s with returned := some (s.cfg.font[d][k]) }) ∧
    (∀ j : Fin 2, exec (.fontRead (.minus j)) s = .next { s with returned := some (s.cfg.minus[j]) })

/-- R51, R101: the font's addresses as numbers: digits 0..9 with columns 0..2, the minus glyph 10 with columns 0..1, no other. -/
def Obligations.FontAddressesAreTheElevenGlyphs : Prop :=
  (∀ (d : Fin 10) (k : Fin 3), glyphCol? d.val k.val = some (.digit d k)) ∧
  (∀ j : Fin 2, glyphCol? 10 j.val = some (.minus j)) ∧
  (∀ g k, (11 ≤ g ∨ 3 ≤ k ∨ (g = 10 ∧ k = 2)) → glyphCol? g k = none)

/-- R73, R152, R156, R222, and the model's choice of log 7 that a frame word run on its own is transmitted and latched: it
completes from every state, its 50 events are the word's and the latch pulse, every other element is unchanged, and with
CLOCK and LATCH low before (R163) the chain's outputs are the word. -/
def Obligations.FrameWordsAreTransmittedAndLatched : Prop :=
  ∀ (rb cb : Byte) (s : State),
    let sends (i : Instr) (w : FrameWord) : Prop := ∃ ch : Chain,
      exec i s = .next { s with
        pins := ⟨w.getLsbD 0, false, false⟩, chain := ch, trace := s.trace ++ (txEvents w ++ latchEvents) } ∧
      (s.pins.clock = false → s.pins.latch = false → ch = ⟨w, w⟩)
    sends (.frameDataRowFirst rb cb) (rb ++ cb) ∧ sends (.frameDataColFirst rb cb) (cb ++ rb) ∧
      sends .frameBlank (s.cfg.frame s.cfg.rmask s.cfg.cmask)

/-- R165: one SCAN appends exactly 100 pin events: 32 DATA writes, 32 `CLOCK <- 1`, 32 `CLOCK <- 0`, 2 `LATCH <- 1`,
2 `LATCH <- 0`, whatever the data. -/
def Obligations.ScanAppendsExactlyOneHundredPinEvents : Prop :=
  ∀ s : State, ∃ t es, exec .scan s = .next t ∧ t.trace = s.trace ++ es ∧ es.length = 100 ∧
    es.countP (fun e => e.pin = .data) = 32 ∧ es.count ⟨.clock, true⟩ = 32 ∧ es.count ⟨.clock, false⟩ = 32 ∧
    es.count ⟨.latch, true⟩ = 2 ∧ es.count ⟨.latch, false⟩ = 2

/-- R164: in the trace of every state of the invariant there are exactly 16 `CLOCK <- 1` before the first `LATCH <- 1` and between any
two consecutive ones, and what is latched, whatever the chain held before, is complete frame words: BLANK and one data word
for each scan step, in turn. -/
def Obligations.SixteenClocksBeforeEveryLatch : Prop :=
  ∀ s : State, s.Inv → ∃ vs : List Byte, latchGaps 0 s.trace = List.replicate (2 * vs.length) 16 ∧
    ∀ ch : Chain, latchedWords ⟨false, false, false⟩ ch s.trace =
      vs.zipIdx.flatMap fun x => [s.cfg.blank, s.cfg.dataWord x.1 (BitVec.ofNat 3 x.2)]

/-- R174: `k` consecutive scan steps drive the columns from the cursor on in order, one each, and leave the cursor `k` further,
modulo 8, whatever the buffers hold; so 8 of them bring it back; and COMPOSE, PUBLISH, NOP do not touch it. -/
def Obligations.ScanStepsDriveTheColumnsInOrder : Prop :=
  ∀ (s : State) (k : Nat),
    (s.scans k).cursor = BitVec.ofNat 3 (s.cursor.toNat + k) ∧
    (s.scans k).trace = s.trace ++
      scanTrace s.cfg s.cursor ((List.range k).map fun j => s.fb s.liveSel (s.cursor + BitVec.ofNat 3 j)) ∧
    (s.scans 8).cursor = s.cursor ∧
    ∀ (i : Instr) (t : State), (i = .nop ∨ i = .publish ∨ ∃ n, i = .compose n) → exec i s = .next t → t.cursor = s.cursor

/-- R175: over a refresh cycle with a stable live buffer `L` the words latched are, for each column in turn, BLANK and
`frame(L[c] XOR RMASK, sel(c) XOR CMASK)`. -/
def Obligations.RefreshCycleLatchesEveryColumnOnce : Prop :=
  ∀ s : State, s.pins.clock = false → s.pins.latch = false →
    ∃ es, (s.scans 8).trace = s.trace ++ es ∧
      latchedWords s.pins s.chain es = (List.range 8).flatMap fun j =>
        let c := s.cursor + BitVec.ofNat 3 j
        [s.cfg.blank, s.cfg.frame (s.fb s.liveSel c ^^^ s.cfg.rmask) ((1#8 <<< c.toNat) ^^^ s.cfg.cmask)]

/-! ## The matrix -/

/-- R225: after a scan step that captured `v` at `cursor = c`, column `c` shows `v` and every other column is dark. -/
def Obligations.AfterAScanStepOneColumnShowsTheCapturedByte : Prop :=
  ∀ s : State, ∃ t, exec .scan s = .next t ∧
    t.chain.out = s.cfg.frame (s.fb s.liveSel s.cursor ^^^ s.cfg.rmask) (sel s.cursor ^^^ s.cfg.cmask) ∧
    ∀ (i : Fin 8) (c : Column), lit s.cfg t.chain.out i c = ((s.fb s.liveSel s.cursor).getLsbD i.val && decide (c = s.cursor))

/-- R226: within a scan step from idle pins, up to the first latch pulse the outputs are as before, between the two latch pulses they
are BLANK, every row line and every column line is inactive and no LED is lit, and from the second pulse on they are the
data word. -/
def Obligations.BetweenTheTwoLatchPulsesNoLedIsLit : Prop :=
  ∀ (s : State) (n : Nat), s.pins.clock = false → s.pins.latch = false →
    let v := s.fb s.liveSel s.cursor
    let out := (s.capture.drive ((scanEvents s.cfg v s.cursor).take n)).chain.out
    (n ≤ 48 → out = s.chain.out) ∧
    (49 ≤ n → n ≤ 98 → out = s.cfg.frame s.cfg.rmask s.cfg.cmask ∧
      ∀ i c, rowActive s.cfg out i = false ∧ colActive s.cfg out c = false ∧ lit s.cfg out i c = false) ∧
    (99 ≤ n → out = s.cfg.dataWord v s.cursor)

/-- R228: over a refresh cycle with a stable live buffer, an LED is lit after exactly one of the 8 scan steps if its bit is set, and
after none if it is not. -/
def Obligations.RefreshCycleLightsEachSetLedOnce : Prop :=
  ∀ (s : State) (i : Fin 8) (c : Column),
    ((List.range 8).countP fun j => lit s.cfg (s.scans (j + 1)).chain.out i c) =
      if (s.fb s.liveSel c).getLsbD i.val then 1 else 0

/-- R246: while the live buffer is all zero, no operation but PUBLISH makes it anything else, and a scan step lights nothing. -/
def Obligations.DarkUntilThePublish : Prop :=
  ∀ (s t : State) (i : Instr), (∀ c, s.fb s.liveSel c = 0x00) → i ≠ .publish → exec i s = .next t →
    (∀ c, t.fb t.liveSel c = 0x00) ∧
    (i = .scan → ∀ r c, lit t.cfg t.chain.out r c = false)

/-! ## The compositor -/

/-- R121, R130: saturation: `compose(n)` is `compose` of the clamped number, so it is `compose(99)` above 99 and `compose(-9)`
below -9. -/
def Obligations.ComposeSaturates : Prop :=
  ∀ (cfg : Cfg) (n : Int),
    compose cfg n = compose cfg (if n < -9 then -9 else if 99 < n then 99 else n) ∧
    (99 < n → compose cfg n = compose cfg 99) ∧ (n < -9 → compose cfg n = compose cfg (-9))

/-- R122, R123, R124, R127: for `10 * t + o` with `t` in 1..9 the tens glyph stands at TENS_COL, the ones glyph at ONES_COL, and
every other column is zero. -/
def Obligations.TwoDigitLayoutShowsTensAndOnes : Prop :=
  ∀ (cfg : Cfg) (t o : Fin 10), cfg.glyphsFit = true → cfg.glyphsSeparated = true → 1 ≤ t.val →
    let buf := compose cfg (10 * (t.val : Int) + (o.val : Int))
    (∀ (c : Column) (k : Fin 3), c.toNat = cfg.tensCol.val + k.val → colOf buf c = cfg.font[t][k]) ∧
    (∀ (c : Column) (k : Fin 3), c.toNat = cfg.onesCol.val + k.val → colOf buf c = cfg.font[o][k]) ∧
    (∀ c : Column, (∀ k : Fin 3, c.toNat ≠ cfg.tensCol.val + k.val ∧ c.toNat ≠ cfg.onesCol.val + k.val) →
      colOf buf c = 0x00)

/-- R122, R123, R125, R127: a number 0..9 is its glyph at SINGLE_COL, every other column zero. -/
def Obligations.OneDigitLayoutShowsTheGlyph : Prop :=
  ∀ (cfg : Cfg) (d : Fin 10), cfg.glyphsFit = true →
    let buf := compose cfg (d.val : Int)
    (∀ (c : Column) (k : Fin 3), c.toNat = cfg.singleCol.val + k.val → colOf buf c = cfg.font[d][k]) ∧
    (∀ c : Column, (∀ k : Fin 3, c.toNat ≠ cfg.singleCol.val + k.val) → colOf buf c = 0x00)

/-- R122, R123, R126, R127: a number -9..-1 is the minus glyph at NEG_MINUS_COL and the glyph of its absolute value at
NEG_DIGIT_COL, every other column zero. -/
def Obligations.NegativeLayoutShowsMinusAndDigit : Prop :=
  ∀ (cfg : Cfg) (d : Fin 10), cfg.glyphsFit = true → cfg.glyphsSeparated = true → 1 ≤ d.val →
    let buf := compose cfg (-(d.val : Int))
    (∀ (c : Column) (j : Fin 2), c.toNat = cfg.negMinusCol.val + j.val → colOf buf c = cfg.minus[j]) ∧
    (∀ (c : Column) (k : Fin 3), c.toNat = cfg.negDigitCol.val + k.val → colOf buf c = cfg.font[d][k]) ∧
    (∀ c : Column, (∀ j : Fin 2, c.toNat ≠ cfg.negMinusCol.val + j.val) →
      (∀ k : Fin 3, c.toNat ≠ cfg.negDigitCol.val + k.val) → colOf buf c = 0x00)

/-- R130 (a), (d), R8 (b): in every well-formed layout a blank column separates the glyphs of a group; with the default layout it is
column 3, column 7 is always blank, and column 0 is blank unless the number drawn is 10 or more. -/
def Obligations.ABlankColumnSeparatesTheGlyphs : Prop :=
  ∀ (cfg : Cfg) (n : Int), cfg.glyphsFit = true → cfg.glyphsSeparated = true →
    (10 ≤ n → ∃ c : Column, cfg.tensCol.val + 2 < c.toNat ∧ c.toNat < cfg.onesCol.val ∧ colOf (compose cfg n) c = 0x00) ∧
    (n < 0 → ∃ c : Column, cfg.negMinusCol.val + 1 < c.toNat ∧ c.toNat < cfg.negDigitCol.val ∧
      colOf (compose cfg n) c = 0x00) ∧
    (cfg.tensCol = 0 → cfg.onesCol = 4 → cfg.singleCol = 2 → cfg.negMinusCol = 1 → cfg.negDigitCol = 4 →
      colOf (compose cfg n) 7 = 0x00 ∧ (n < 10 → colOf (compose cfg n) 0 = 0x00) ∧
      (10 ≤ n ∨ n < 0 → colOf (compose cfg n) 3 = 0x00))

/-! ## Memory -/

/-- R59 with the model's memory: memories in canonical form that read alike are equal, so composing the same number twice with the
same `live_sel` is composing it once. -/
def Obligations.ComposeTwiceIsComposeOnce : Prop :=
  (∀ m m' : Memory, Memory.wf m = true → Memory.wf m' = true → (∀ a, Memory.read m a = Memory.read m' a) → m = m') ∧
  ∀ (n : Int) (s : State), Memory.wf s.mem = true →
    ∃ t, exec (.compose n) s = .next t ∧ exec (.compose n) t = .next t

/-- R59: transmitting the same frame word twice leaves the chain as transmitting it once does. -/
def Obligations.TransmittingTwiceLeavesTheSameChain : Prop :=
  ∀ (w : FrameWord) (s : State), s.pins.clock = false → s.pins.latch = false →
    ((s.transmit w).transmit w).chain = (s.transmit w).chain

/-- R62, R32: a scan step depends on the frame buffers only through the live buffer: two states that differ in the staging buffer
alone give the same step but for that buffer. -/
def Obligations.ScanNeverReadsTheStagingBuffer : Prop :=
  ∀ (s : State) (m : Memory), (∀ c, Memory.read m (fbKey s.liveSel c) = Memory.read s.mem (fbKey s.liveSel c)) →
    ∃ t, exec .scan s = .next t ∧ exec .scan { s with mem := m } = .next { t with mem := m }

/-- R134, R176: a scan step depends on nothing the compositor uses: neither on the font nor on the layout columns. -/
def Obligations.ScanDependsOnNeitherFontNorLayout : Prop :=
  ∀ (s : State) (cfg : Cfg), cfg.rowActiveLow = s.cfg.rowActiveLow → cfg.colActiveLow = s.cfg.colActiveLow →
    cfg.rowFirst = s.cfg.rowFirst →
    ∃ t, exec .scan s = .next t ∧ exec .scan { s with cfg := cfg } = .next { t with cfg := cfg }

/-- R64, R65: a scan step that follows a PUBLISH reads the newly published buffer, whatever the cursor. -/
def Obligations.TheScanAfterAPublishReadsTheNewBuffer : Prop :=
  ∀ s : State, ∃ t u, exec .publish s = .next t ∧ exec .scan t = .next u ∧
    u.colLatch = s.fb (1 - s.liveSel) s.cursor ∧ u.cursor = s.cursor + 1

/-! ## Whole-machine rules -/

/-- R22: `live_sel` is written only by PUBLISH, which inverts it, and by RESET. -/
def Obligations.OnlyPublishAndResetWriteLiveSel : Prop :=
  ∀ (i : Instr) (s t : State), exec i s = .next t →
    (i ≠ .publish → i ≠ .reset → t.liveSel = s.liveSel) ∧ (i = .publish → t.liveSel ≠ s.liveSel)

/-- R24, R157: the cursor is advanced only by a scan step, by exactly one modulo 8, and set only by RESET, to 0. -/
def Obligations.TheCursorOnlyAdvancesByOneOrIsReset : Prop :=
  ∀ (i : Instr) (s t : State), exec i s = .next t →
    (t.cursor = s.cursor ∨ (t.cursor = s.cursor + 1 ∧ (i = .scan ∨ i = .tick ∨ ∃ now, i = .poll now)) ∨
      (t.cursor = 0 ∧ i = .reset)) ∧
    (t.cursor ≠ s.cursor → i ≠ .nop ∧ i ≠ .publish ∧ ∀ n, i ≠ .compose n)

/-- R32, R62: only COMPOSE and RESET write a frame buffer, and COMPOSE never writes the live one. -/
def Obligations.OnlyComposeAndResetWriteFrameBuffers : Prop :=
  ∀ (i : Instr) (s t : State), exec i s = .next t → i ≠ .reset →
    (∀ c, t.fb s.liveSel c = s.fb s.liveSel c) ∧ ((∀ n, i ≠ .compose n) → t.mem = s.mem)

/-- R28: every operation but RESET extends the trace, and the pins and the chain are the replay of what it appended. -/
def Obligations.PinsAndChainAreFunctionsOfTheTrace : Prop :=
  ∀ (i : Instr) (s t : State), exec i s = .next t → i ≠ .reset →
    ∃ es, t.trace = s.trace ++ es ∧ replay s.pins s.chain es = (t.pins, t.chain)

/-- R29: no operation writes the configuration. -/
def Obligations.TheConfigurationIsNeverWritten : Prop :=
  ∀ (i : Instr) (s t : State), exec i s = .next t → t.cfg = s.cfg

/-! ## Encodings -/

/-- R79, R80, R81: the four opcodes with their operands: `arg` of NOP and PUBLISH is ignored, COMPOSE's is 32-bit two's complement,
POLL's unsigned. -/
def Obligations.CommandWordsDecodeByTheirOpcode : Prop :=
  ∀ arg : Word32, decodeCommand ((0b00 : BitVec 2) ++ arg) = .nop ∧
    decodeCommand ((0b01 : BitVec 2) ++ arg) =
      .compose (if arg.toNat < 2147483648 then (arg.toNat : Int) else (arg.toNat : Int) - 4294967296) ∧
    decodeCommand ((0b10 : BitVec 2) ++ arg) = .publish ∧ decodeCommand ((0b11 : BitVec 2) ++ arg) = .poll arg

/-- R73, R77 to R80: decoding and encoding agree, for every configuration: a well-formed instruction that is encoded as a line or a
frame word is read back from it, with its operands; every frame word is written back from what it decodes to; and a command
word too, but for an ignored `arg`. -/
def Obligations.DecodeAndEncodeAgree : Prop :=
  ∀ cfg : Cfg,
    (∀ (i : Instr) (e : Encoded), i.wf cfg = true → encode cfg i = some e → decode cfg e = i) ∧
    (∀ w : FrameWord, encode cfg (decodeFrame cfg w) = some (.frame w)) ∧
    (∀ w : CmdWord, (cmdOp w = 0b01 ∨ cmdOp w = 0b11 ∨ cmdArg w = 0) →
      encode cfg (decodeCommand w) = some (.line (.command w)))

/-- R75, R76, R77: the data word of every byte and column decodes to the frame instruction of the configuration's byte order with that
row byte and column byte, and is never BLANK. -/
def Obligations.DataWordsDecodeToTheirTwoBytes : Prop :=
  ∀ (cfg : Cfg) (v : Byte) (c : Column),
    decodeFrame cfg (cfg.dataWord v c) =
      (if cfg.rowFirst then .frameDataRowFirst (v ^^^ cfg.rmask) (sel c ^^^ cfg.cmask)
        else .frameDataColFirst (v ^^^ cfg.rmask) (sel c ^^^ cfg.cmask)) ∧
    decodeFrame cfg cfg.blank = .frameBlank

/-- Words written out from R78, R79, R84 (and the programs of 95_test_vectors.md) decode to the instructions they stand for. -/
def Obligations.SampleWordsDecodeAsTheSpecWritesThem : Prop :=
  decodeTableWord 40 0x000000000 = some .nop ∧ decodeTableWord 40 0x10000002A = some (.compose 42) ∧
    decodeTableWord 40 0x1FFFFFFFD = some (.compose (-3)) ∧ decodeTableWord 40 0x200000000 = some .publish ∧
    decodeTableWord 40 0x3000003E8 = some (.poll 1000) ∧
    decodeTableWord 16 0x0F01 = some (.frameDataRowFirst 0x0F 0x01) ∧ decodeTableWord 16 0x0000 = some .frameBlank

/-- R84, R85: what the lines of a script operation decode to, the pseudo-operations expanded; for COMPOSE and SHOW of a number that
fits the port. -/
def Obligations.ScriptOperationsExpandAsTheSpecSays : Prop :=
  ∀ (n : Int) (now : Word32) (k : Nat), fitsPort n = true →
    (assemble [.compose n]).map decodeLine = [.compose n] ∧
    (assemble [.display n]).map decodeLine = [.compose n, .publish] ∧
    (assemble [.poll now]).map decodeLine = [.poll now] ∧
    (assemble [.ticks k]).map decodeLine = List.replicate k .tick ∧ assemble [.cycle] = assemble [.ticks 8] ∧
    (assemble [.reset, .nop, .publish, .tick]).map decodeLine = [.reset, .nop, .publish, .tick]

/-! ## Steps -/

/-- The model's step (log 3, log 7): in a well-formed configuration with an admitted script and nothing on the bench, a step takes the
first line off the script, decodes it and runs it; with nothing scheduled it runs TICK in TIMER mode and NOP in POLLED mode.
A frame word on the bench is taken off, decoded and run instead. -/
def Obligations.AStepRunsTheDecodedLine : Prop :=
  ∀ s : State, s.cfg.wf = true → scriptAdmitted s.cfg s.script = true →
    (∀ l rest, s.bench = none → s.script = l :: rest → step s = exec (decodeLine l) { s with script := rest }) ∧
    (s.bench = none → s.script = [] → s.cfg.scanMode = .timer → step s = exec .tick s) ∧
    (s.bench = none → s.script = [] → s.cfg.scanMode = .polled → step s = exec .nop s) ∧
    (∀ w, s.bench = some w → step s = exec (decodeFrame s.cfg w) { s with bench := none })

/-- R8, R170: which configurations are well formed, bound by bound, in TIMER mode with at least 102 cycles a tick (R208), times read
in the units of log 10 and log 11; a configuration that is not well formed is refused, and so is a script that contains TICK
in POLLED mode. -/
def Obligations.IllFormedConfigurationsAndScriptsAreRefused : Prop :=
  (∀ cfg : Cfg, cfg.wf = true ↔
    (cfg.tensCol.val + 3 ≤ 8 ∧ cfg.onesCol.val + 3 ≤ 8 ∧ cfg.singleCol.val + 3 ≤ 8 ∧ cfg.negMinusCol.val + 2 ≤ 8 ∧
      cfg.negDigitCol.val + 3 ≤ 8) ∧
    (cfg.tensCol.val + 4 ≤ cfg.onesCol.val ∧ cfg.negMinusCol.val + 3 ≤ cfg.negDigitCol.val) ∧
    (cfg.scanMode = .timer → 102 ≤ cfg.tTick * cfg.fClk / 1000000000 ∧ 8 * cfg.tTick < 20000000) ∧
    (cfg.scanMode = .polled → 8 * (cfg.scanInterval.toNat * cfg.hostUnit) < 20000000)) ∧
  ∀ s : State, (s.cfg.wf = false → step s = .refused .illFormedConfig) ∧
    (s.cfg.wf = true → s.cfg.scanMode = .polled → .tick ∈ s.script → step s = .refused .tickInPolledMode)

/-- R11, R200: every operation is total: in a well-formed configuration with an admitted script a step answers a next state, in
which the configuration is the same and the script is admitted again; so a run never stops. -/
def Obligations.EveryStepCompletes : Prop :=
  (∀ s : State, s.cfg.wf = true → scriptAdmitted s.cfg s.script = true →
    ∃ t, step s = .next t ∧ t.cfg = s.cfg ∧ scriptAdmitted t.cfg t.script = true) ∧
  ∀ (s : State) (k : Nat), s.cfg.wf = true → scriptAdmitted s.cfg s.script = true →
    ∃ t, Host.Core.run Sys2Proof.core k s = .next t

/-- R170, R245: with nothing scheduled and nothing on the bench, in TIMER mode, the block scans on its own for ever. -/
def Obligations.AnIdleTimerBlockScansOnItsOwn : Prop :=
  ∀ (s : State) (k : Nat), s.cfg.wf = true → s.cfg.scanMode = .timer → s.script = [] → s.bench = none →
    Host.Core.run Sys2Proof.core k s = .next (s.scans k)

/-! ## The invariant -/

/-- The invariant holds right after power-on in every well-formed configuration, and in `State.reset`. -/
def Obligations.InvariantHoldsAtReset : Prop :=
  State.reset.Inv ∧ ∀ (cfg : Cfg) (sr out : BitVec 16), cfg.wf = true → (State.powerOn cfg sr out).Inv

/-- Every step keeps the invariant: canonical memory, nothing on the bench, the timer's range, idle pins, whole frames, and a trace of
whole scan steps that the cursor, the captured byte, the pins and the chain agree with. -/
def Obligations.EveryStepKeepsTheInvariant : Prop :=
  ∀ s t : State, s.Inv → step s = .next t → t.Inv

/-- R227: in every state of the invariant whose trace is not empty, OUT is a data word of the byte last captured, and at most one
column line is active. -/
def Obligations.OnlyOneColumnIsSelectedAfterTheFirstScan : Prop :=
  ∀ s : State, s.Inv → s.trace ≠ [] →
    s.chain.out = s.cfg.dataWord s.colLatch (s.cursor - 1) ∧
    ∀ c, colActive s.cfg s.chain.out c = decide (c = s.cursor - 1)

/-! ## The clock level -/

/-- R208, R261: in a well-formed configuration every clock edge keeps the clock level's invariant: a scan step in progress ends before
the next can start. -/
def Obligations.EveryClockEdgeKeepsScanStepsApart : Prop :=
  (∀ cfg sr out, cfg.wf = true → (Clock.Core.idle (State.powerOn cfg sr out)).inv) ∧
  ∀ (p : Clock.Ports) (c : Clock.Core), c.arch.cfg.wf = true → c.inv → (Clock.edge p c).inv

/-- R26, R211, R244: the tick timer is free running: whatever the host presents, `n` edges after reset is released `tick_cnt` is `n`
modulo `TICK_DIV`, and the next edge fires exactly when `n + 1` is a multiple of `TICK_DIV`. -/
def Obligations.TheTickTimerIsFreeRunning : Prop :=
  ∀ (cfg : Cfg) (sr out : BitVec 16) (ps : List Clock.Ports), cfg.wf = true → cfg.scanMode = .timer →
    (∀ p ∈ ps, p.rst = false) →
    let c := Clock.edges ps (Clock.Core.idle (State.powerOn cfg sr out))
    c.arch.tickCnt = ps.length % cfg.tickDiv ∧ (c.fires = true ↔ cfg.tickDiv ∣ ps.length + 1)

/-- R260, R261: a scan step takes 101 edges, whichever way it starts: the capture, on the edge where the timer fires or the one that
takes a POLL that is due, then one pin event on each of 100 edges; between them the trace has grown by exactly the events of
that many edges, and at the end the block is as SCAN leaves it. After the POLL the host may present anything. -/
def Obligations.AScanStepTakesOneHundredAndOneEdges : Prop :=
  (∀ c : Clock.Core, c.inFlight = [] → c.arch.cfg.wf = true → c.fires = true →
    let after (n : Nat) := Clock.edges (List.replicate n Clock.idlePorts) c
    (∀ n ≤ 100, (after (n + 1)).arch.trace =
      c.arch.trace ++ (scanEvents c.arch.cfg (c.arch.fb c.arch.liveSel c.arch.cursor) c.arch.cursor).take n) ∧
    (after 101).inFlight = [] ∧ (after 101).arch = { c.arch.scan with tickCnt := 100 }) ∧
  ∀ (c : Clock.Core) (now : Word32) (ps : List Clock.Ports), c.inFlight = [] → c.ready = true →
    c.arch.pollDue now = true → (∀ p ∈ ps, p.rst = false) → ps.length ≤ 100 →
    let after := Clock.edges (⟨false, true, 0b11, now⟩ :: ps) c
    after.arch.trace = c.arch.trace ++
      (scanEvents c.arch.cfg (c.arch.fb c.arch.liveSel c.arch.cursor) c.arch.cursor).take ps.length ∧
    (ps.length = 100 → after.inFlight = [] ∧ after.arch = { c.arch.scan with lastRefresh := now })

/-- R204, R261 with R10: every clock edge without reset refines whole operations: seen with the scan step in progress finished, it is
a scan step if the timer fires, and then the command taken, if one is; only `tick_cnt` is the clock level's own. -/
def Obligations.ClockEdgesRefineWholeOperations : Prop :=
  ∀ (p : Clock.Ports) (c : Clock.Core), c.arch.cfg.wf = true → c.inv → p.rst = false →
    let s1 : State := if c.fires then c.finish.scan else c.finish
    let i : Instr := if p.cmdValid && c.ready then decodeCommand (p.cmdOp ++ p.cmdArg) else .nop
    ∃ t, exec i s1 = .next t ∧ (Clock.edge p c).finish = { t with tickCnt := (Clock.edge p c).arch.tickCnt }

/-- R240, R241, R243: a clock edge with `rst` is RESET: the block is cleared, a scan step in progress is abandoned, and the chain keeps
what it holds. The model's choice (DESIGN CHOICE, log 18), not these rules': that RESET ALONE takes effect also on an edge on which a
command is presented with `cmd_ready` 1, or a tick or a pin event is due; the spec orders none of these against `rst`. -/
def Obligations.ResetEdgeAbandonsTheScanStep : Prop :=
  ∀ (p : Clock.Ports) (c : Clock.Core), p.rst = true →
    (Clock.edge p c).inFlight = [] ∧ exec .reset c.arch = .next (Clock.edge p c).arch ∧
    (Clock.edge p c).arch.chain = c.arch.chain ∧ (Clock.edge p c).outs = ⟨true, false, false, false⟩

/-- R261 as log 12 reads it, on the port `cmd_ready` and whatever the host presents meanwhile: after the edge that takes a COMPOSE
it is 0 for some number of cycles up to 8 and then 1; after one that takes a POLL that is due, 0 for 101 cycles and then 1;
after any other command it is 1 at once. A command is taken whether or not a scan step is in progress; and an edge without
one leaves `cmd_ready` at 1, so a scan step that the timer starts never takes it away. -/
def Obligations.CommandsHoldReadyLowAsLongAsTheSpecSays : Prop :=
  ∀ (p : Clock.Ports) (c : Clock.Core), p.rst = false → c.outs.cmdReady = true →
    let after (ps : List Clock.Ports) := (Clock.edges ps (Clock.edge p c)).outs.cmdReady
    let lowFor (k : Nat) := ∀ ps : List Clock.Ports, (∀ q ∈ ps, q.rst = false) → ps.length ≤ k →
      after ps = decide (ps.length = k)
    (p.cmdValid = true → p.cmdOp = 0b01 → ∃ k ≤ 8, lowFor k) ∧
    (p.cmdValid = true → p.cmdOp = 0b11 → c.arch.pollDue p.cmdArg = true → lowFor 101) ∧
    (p.cmdValid = true → p.cmdOp = 0b11 → c.arch.pollDue p.cmdArg = false → lowFor 0) ∧
    (p.cmdValid = true → p.cmdOp = 0b00 ∨ p.cmdOp = 0b10 → lowFor 0) ∧
    (p.cmdValid = false → lowFor 0)

/-! ## The block's own pin events -/

/-- R163: in the block itself, where nothing is on the bench (log 7), no step produces a pin event but one that is a scan step: a step
leaves the trace, the pins and the chain, or does to them what SCAN does, or is RESET; in every state of the invariant CLOCK
and LATCH are low and DATA is bit 0 of the last data word, or 0 when there is none since reset. -/
def Obligations.PinEventsComeFromScanStepsOnly : Prop :=
  (∀ s t : State, s.bench = none → step s = .next t → t.bench = none ∧
    ((t.trace = s.trace ∧ t.pins = s.pins ∧ t.chain = s.chain ∧ t.cursor = s.cursor) ∨
      (∃ u, exec .scan s = .next u ∧ t.trace = u.trace ∧ t.pins = u.pins ∧ t.chain = u.chain ∧ t.cursor = u.cursor) ∨
      (t.trace = [] ∧ t.pins = ⟨false, false, false⟩ ∧ t.chain = s.chain ∧ t.cursor = 0))) ∧
  ∀ s : State, s.Inv → s.pins.clock = false ∧ s.pins.latch = false ∧ (s.trace = [] → s.pins.data = false) ∧
    (s.trace ≠ [] → s.pins.data = (s.cfg.dataWord s.colLatch (s.cursor - 1)).getLsbD 0)
end

