-- ==== Sys2Proof/Laws/Frame.lean ====
section
/-! SUPPORT. The frame word's two bytes, the column select, and the command word's fields. -/

namespace Sys2Proof

@[simp] theorem firstByte_append (a b : Byte) : firstByte (a ++ b) = a := by
  unfold firstByte
  apply BitVec.eq_of_getLsbD_eq
  intro i hi
  have := BitVec.getLsbD_append (x := a) (y := b) (i := 8 + i)
  simp only [BitVec.getLsbD_extractLsb', hi, decide_true, Bool.true_and]
  rw [this]; simp

@[simp] theorem lastByte_append (a b : Byte) : lastByte (a ++ b) = b := by
  unfold lastByte
  apply BitVec.eq_of_getLsbD_eq
  intro i hi
  have := BitVec.getLsbD_append (x := a) (y := b) (i := 0 + i)
  simp only [BitVec.getLsbD_extractLsb', hi, decide_true, Bool.true_and]
  rw [this]; simp [hi]

theorem append_bytes (w : FrameWord) : firstByte w ++ lastByte w = w := by
  apply BitVec.eq_of_getLsbD_eq
  intro i hi
  rw [show (firstByte w ++ lastByte w).getLsbD i = _ from BitVec.getLsbD_append]
  unfold firstByte lastByte
  simp only [BitVec.getLsbD_extractLsb']
  by_cases h : i < 8
  · simp [h]
  · simp [h, show i - 8 < 8 by omega, show 8 + (i - 8) = i by omega]

@[simp] theorem rowByte_frame (cfg : Cfg) (rb cb : Byte) : cfg.rowByte (cfg.frame rb cb) = rb := by
  unfold Cfg.rowByte Cfg.frame; cases cfg.rowFirst <;> simp

@[simp] theorem colByte_frame (cfg : Cfg) (rb cb : Byte) : cfg.colByte (cfg.frame rb cb) = cb := by
  unfold Cfg.colByte Cfg.frame; cases cfg.rowFirst <;> simp

/-- A frame word is its row byte and its column byte. -/
theorem frame_inj (cfg : Cfg) (rb cb rb' cb' : Byte) (h : cfg.frame rb cb = cfg.frame rb' cb') : rb = rb' ∧ cb = cb' :=
  ⟨by simpa using congrArg cfg.rowByte h, by simpa using congrArg cfg.colByte h⟩

/-- The column select of a column is not the column byte that selects none. -/
theorem colSelect_ne_cmask (cfg : Cfg) (c : Column) : cfg.colSelect c ≠ cfg.cmask := by
  unfold Cfg.colSelect Cfg.cmask
  cases cfg.colActiveLow <;> revert c <;> decide

theorem dataWord_ne_blank (cfg : Cfg) (v : Byte) (c : Column) : cfg.dataWord v c ≠ cfg.blank := fun h =>
  colSelect_ne_cmask cfg c (frame_inj cfg _ _ _ _ h).2

@[simp] theorem cmdOp_cmdWord (op : BitVec 2) (arg : Word32) : cmdOp (cmdWord op arg) = op := by
  unfold cmdOp cmdWord
  apply BitVec.eq_of_getLsbD_eq
  intro i hi
  have := BitVec.getLsbD_append (x := op) (y := arg) (i := 32 + i)
  simp only [BitVec.getLsbD_extractLsb', hi, decide_true, Bool.true_and]
  rw [this]; simp

@[simp] theorem cmdArg_cmdWord (op : BitVec 2) (arg : Word32) : cmdArg (cmdWord op arg) = arg := by
  unfold cmdArg cmdWord
  apply BitVec.eq_of_getLsbD_eq
  intro i hi
  have := BitVec.getLsbD_append (x := op) (y := arg) (i := 0 + i)
  simp only [BitVec.getLsbD_extractLsb', hi, decide_true, Bool.true_and]
  rw [this]; simp [hi]

theorem cmdWord_fields (w : CmdWord) : cmdWord (cmdOp w) (cmdArg w) = w := by
  unfold cmdWord
  apply BitVec.eq_of_getLsbD_eq
  intro i hi
  rw [show (cmdOp w ++ cmdArg w).getLsbD i = _ from BitVec.getLsbD_append]
  unfold cmdOp cmdArg
  simp only [BitVec.getLsbD_extractLsb']
  by_cases h : i < 32
  · simp [h]
  · simp [h, show i - 32 < 2 by omega, show 32 + (i - 32) = i by omega]

end Sys2Proof

namespace Sys2Proof.Machine

/-- Bit `c` of the column byte that selects column `c'`, after its polarity. -/
theorem colSelect_bit (cfg : Cfg) (c c' : Column) :
    ((cfg.colSelect c').getLsbD c.toNat ^^ cfg.colActiveLow) = decide (c = c') := by
  unfold Cfg.colSelect Cfg.cmask
  cases cfg.colActiveLow <;> revert c c' <;> decide

/-- Bit `i` of the row byte of `v`, after its polarity. -/
theorem rowPattern_bit (cfg : Cfg) (v : Byte) (i : Fin 8) :
    ((cfg.rowPattern v).getLsbD i.val ^^ cfg.rowActiveLow) = v.getLsbD i.val := by
  have h : (0xFF : Byte).getLsbD i.val = true := by revert i; decide
  unfold Cfg.rowPattern Cfg.rmask
  rw [BitVec.getLsbD_xor]
  cases cfg.rowActiveLow
  · simp
  · rw [if_pos rfl, h, Bool.xor_true, Bool.xor_true, Bool.not_not]

/-- A data word lights the rows of its byte in its column and nothing else (R225). -/
theorem lit_dataWord (cfg : Cfg) (v : Byte) (c' : Column) (i : Fin 8) (c : Column) :
    lit cfg (cfg.dataWord v c') i c = (v.getLsbD i.val && decide (c = c')) := by
  unfold lit rowActive colActive Cfg.dataWord
  rw [rowByte_frame, colByte_frame, colSelect_bit, rowPattern_bit]

/-- The blank word makes no line active (R226). -/
theorem lines_blank (cfg : Cfg) (i : Fin 8) (c : Column) :
    rowActive cfg cfg.blank i = false ∧ colActive cfg cfg.blank c = false := by
  unfold rowActive colActive Cfg.blank
  rw [rowByte_frame, colByte_frame]
  unfold Cfg.rmask Cfg.cmask
  exact ⟨by cases cfg.rowActiveLow <;> revert i <;> decide, by cases cfg.colActiveLow <;> revert c <;> decide⟩

/-- The blank word lights nothing (R226). -/
theorem lit_blank (cfg : Cfg) (i : Fin 8) (c : Column) : lit cfg cfg.blank i c = false := by
  unfold lit; rw [(lines_blank cfg i c).1, Bool.false_and]

end Sys2Proof.Machine
end

