-- ==== Sys2Proof/Laws/PerInstr.lean ====
section
/-! SUPPORT. The family RoundTrip: decoding an encoded well-formed instruction gives it back, one lemma per constructor. -/

namespace Sys2Proof.Laws.RoundTrip

/-- Decoding what a well-formed instruction is encoded as gives the instruction. -/
def Statement (i : Instr) : Prop :=
  ∀ (cfg : Cfg) (e : Encoded), i.wf cfg = true → encode cfg i = some e → decode cfg e = i

theorem sext32_ofInt (n : Int) (h : fitsPort n = true) : sext32 (BitVec.ofInt 32 n) = n := by
  simp only [fitsPort, Bool.and_eq_true, decide_eq_true_eq] at h
  unfold sext32
  rw [BitVec.toInt_ofInt, Int.bmod_def]
  omega

theorem decodeCommand_word (op : BitVec 2) (arg : Word32) : decodeCommand (cmdWord op arg) =
    if op = 0b00 then .nop else if op = 0b01 then .compose (sext32 arg) else if op = 0b10 then .publish else .poll arg := by
  unfold decodeCommand; simp only [cmdOp_cmdWord, cmdArg_cmdWord]

/-- A column byte that selects one column is not the one of BLANK, whatever the row byte. -/
theorem frame_ne_blank {cfg : Cfg} {rb cb : Byte} (h : cfg.selectsOne cb = true) : cfg.frame rb cb ≠ cfg.blank := by
  intro hb
  obtain ⟨c, _, hc⟩ := List.any_eq_true.1 h
  rw [eq_of_beq hc] at hb
  exact colSelect_ne_cmask cfg c (frame_inj cfg _ _ _ _ hb).2

theorem nop : Statement .nop := by
  rintro cfg l - h; cases h; simp [decode, decodeLine, decodeCommand_word]
theorem compose (n : Int) : Statement (.compose n) := by
  rintro cfg l hw h; cases h; simp [decode, decodeLine, decodeCommand_word, sext32_ofInt n hw]
theorem publish : Statement .publish := by
  rintro cfg l - h; cases h; simp [decode, decodeLine, decodeCommand_word]
theorem poll (now : Word32) : Statement (.poll now) := by
  rintro cfg l - h; cases h; simp [decode, decodeLine, decodeCommand_word]
theorem tick : Statement .tick := by rintro cfg l - h; cases h; rfl
theorem reset : Statement .reset := by rintro cfg l - h; cases h; rfl
theorem scan : Statement .scan := by rintro cfg l - h; cases h
theorem tx (w : FrameWord) : Statement (.tx w) := by rintro cfg l - h; cases h
theorem latchPulse : Statement .latchPulse := by rintro cfg l - h; cases h
theorem fontRead (g : GlyphCol) : Statement (.fontRead g) := by rintro cfg l - h; cases h
theorem frameDataRowFirst (rb cb : Byte) : Statement (.frameDataRowFirst rb cb) := by
  rintro cfg l hw h
  cases h
  obtain ⟨hr, hs⟩ := Bool.and_eq_true_iff.1 hw
  have hb := frame_ne_blank (rb := rb) hs
  rw [Cfg.frame, if_pos hr] at hb
  simp [decode, decodeFrame, hb, hr]
theorem frameDataColFirst (rb cb : Byte) : Statement (.frameDataColFirst rb cb) := by
  rintro cfg l hw h
  cases h
  obtain ⟨hr, hs⟩ := Bool.and_eq_true_iff.1 hw
  have hb := frame_ne_blank (rb := rb) hs
  have hr : cfg.rowFirst = false := by simpa using hr
  rw [Cfg.frame, hr, if_neg (by simp)] at hb
  simp [decode, decodeFrame, hb, hr]
theorem frameBlank : Statement .frameBlank := by
  rintro cfg l - h; cases h; simp [decode, decodeFrame]

end Sys2Proof.Laws.RoundTrip
end

