-- ==== Sys2Proof/Laws/State.lean ====
section
/-! SUPPORT. One lemma per field per update, so that no later proof unfolds a record update; and one lemma per shared
operation that says all it does. -/

namespace Sys2Proof.Machine

/-! ## One pin event -/

@[simp] theorem pinEvent_cfg (s : State) (e : PinEvent) : (s.pinEvent e).cfg = s.cfg := rfl
@[simp] theorem pinEvent_mem (s : State) (e : PinEvent) : (s.pinEvent e).mem = s.mem := rfl
@[simp] theorem pinEvent_liveSel (s : State) (e : PinEvent) : (s.pinEvent e).liveSel = s.liveSel := rfl
@[simp] theorem pinEvent_colLatch (s : State) (e : PinEvent) : (s.pinEvent e).colLatch = s.colLatch := rfl
@[simp] theorem pinEvent_cursor (s : State) (e : PinEvent) : (s.pinEvent e).cursor = s.cursor := rfl
@[simp] theorem pinEvent_lastRefresh (s : State) (e : PinEvent) : (s.pinEvent e).lastRefresh = s.lastRefresh := rfl
@[simp] theorem pinEvent_tickCnt (s : State) (e : PinEvent) : (s.pinEvent e).tickCnt = s.tickCnt := rfl
@[simp] theorem pinEvent_script (s : State) (e : PinEvent) : (s.pinEvent e).script = s.script := rfl
@[simp] theorem pinEvent_returned (s : State) (e : PinEvent) : (s.pinEvent e).returned = s.returned := rfl
@[simp] theorem pinEvent_bench (s : State) (e : PinEvent) : (s.pinEvent e).bench = s.bench := rfl
@[simp] theorem pinEvent_trace (s : State) (e : PinEvent) : (s.pinEvent e).trace = s.trace ++ [e] := rfl

/-! ## A list of pin events -/

@[simp] theorem drive_nil (s : State) : s.drive [] = s := by simp [State.drive]

@[simp] theorem drive_cons (s : State) (e : PinEvent) (es : List PinEvent) :
    s.drive (e :: es) = (s.pinEvent e).drive es := by simp [State.drive]

theorem drive_append (s : State) (es fs : List PinEvent) : s.drive (es ++ fs) = (s.drive es).drive fs := by
  simp [State.drive]

theorem replay_append (p : Pins) (ch : Chain) (es fs : List PinEvent) :
    replay p ch (es ++ fs) = replay (replay p ch es).1 (replay p ch es).2 fs := by
  induction es generalizing p ch with
  | nil => rfl
  | cons e es ih => exact ih _ _

/-- All that a list of pin events does: the pins and the chain are its replay, and it is appended to the trace. -/
theorem drive_eq (s : State) (es : List PinEvent) :
    s.drive es = { s with
      pins := (replay s.pins s.chain es).1, chain := (replay s.pins s.chain es).2, trace := s.trace ++ es } := by
  induction es generalizing s with
  | nil => simp [replay]
  | cons e es ih => rw [drive_cons, ih]; simp [State.pinEvent, replay]

@[simp] theorem drive_cfg (s : State) (es : List PinEvent) : (s.drive es).cfg = s.cfg := by rw [drive_eq]
@[simp] theorem drive_mem (s : State) (es : List PinEvent) : (s.drive es).mem = s.mem := by rw [drive_eq]
@[simp] theorem drive_liveSel (s : State) (es : List PinEvent) : (s.drive es).liveSel = s.liveSel := by rw [drive_eq]
@[simp] theorem drive_colLatch (s : State) (es : List PinEvent) : (s.drive es).colLatch = s.colLatch := by rw [drive_eq]
@[simp] theorem drive_cursor (s : State) (es : List PinEvent) : (s.drive es).cursor = s.cursor := by rw [drive_eq]
@[simp] theorem drive_lastRefresh (s : State) (es : List PinEvent) : (s.drive es).lastRefresh = s.lastRefresh := by
  rw [drive_eq]
@[simp] theorem drive_tickCnt (s : State) (es : List PinEvent) : (s.drive es).tickCnt = s.tickCnt := by rw [drive_eq]
@[simp] theorem drive_script (s : State) (es : List PinEvent) : (s.drive es).script = s.script := by rw [drive_eq]
@[simp] theorem drive_returned (s : State) (es : List PinEvent) : (s.drive es).returned = s.returned := by rw [drive_eq]
@[simp] theorem drive_bench (s : State) (es : List PinEvent) : (s.drive es).bench = s.bench := by rw [drive_eq]
@[simp] theorem drive_trace (s : State) (es : List PinEvent) : (s.drive es).trace = s.trace ++ es := by rw [drive_eq]
@[simp] theorem drive_pins (s : State) (es : List PinEvent) : (s.drive es).pins = (replay s.pins s.chain es).1 := by
  rw [drive_eq]
@[simp] theorem drive_chain (s : State) (es : List PinEvent) : (s.drive es).chain = (replay s.pins s.chain es).2 := by
  rw [drive_eq]

/-! ## The other updates -/

@[simp] theorem capture_cfg (s : State) : s.capture.cfg = s.cfg := rfl
@[simp] theorem capture_mem (s : State) : s.capture.mem = s.mem := rfl
@[simp] theorem capture_liveSel (s : State) : s.capture.liveSel = s.liveSel := rfl
@[simp] theorem capture_colLatch (s : State) : s.capture.colLatch = s.fb s.liveSel s.cursor := rfl
@[simp] theorem capture_cursor (s : State) : s.capture.cursor = s.cursor := rfl
@[simp] theorem capture_lastRefresh (s : State) : s.capture.lastRefresh = s.lastRefresh := rfl
@[simp] theorem capture_tickCnt (s : State) : s.capture.tickCnt = s.tickCnt := rfl
@[simp] theorem capture_pins (s : State) : s.capture.pins = s.pins := rfl
@[simp] theorem capture_trace (s : State) : s.capture.trace = s.trace := rfl
@[simp] theorem capture_chain (s : State) : s.capture.chain = s.chain := rfl
@[simp] theorem capture_script (s : State) : s.capture.script = s.script := rfl
@[simp] theorem capture_returned (s : State) : s.capture.returned = s.returned := rfl
@[simp] theorem capture_bench (s : State) : s.capture.bench = s.bench := rfl

@[simp] theorem advance_cfg (s : State) : s.advance.cfg = s.cfg := rfl
@[simp] theorem advance_mem (s : State) : s.advance.mem = s.mem := rfl
@[simp] theorem advance_liveSel (s : State) : s.advance.liveSel = s.liveSel := rfl
@[simp] theorem advance_colLatch (s : State) : s.advance.colLatch = s.colLatch := rfl
@[simp] theorem advance_cursor (s : State) : s.advance.cursor = s.cursor + 1 := rfl
@[simp] theorem advance_lastRefresh (s : State) : s.advance.lastRefresh = s.lastRefresh := rfl
@[simp] theorem advance_tickCnt (s : State) : s.advance.tickCnt = s.tickCnt := rfl
@[simp] theorem advance_pins (s : State) : s.advance.pins = s.pins := rfl
@[simp] theorem advance_trace (s : State) : s.advance.trace = s.trace := rfl
@[simp] theorem advance_chain (s : State) : s.advance.chain = s.chain := rfl
@[simp] theorem advance_script (s : State) : s.advance.script = s.script := rfl
@[simp] theorem advance_returned (s : State) : s.advance.returned = s.returned := rfl
@[simp] theorem advance_bench (s : State) : s.advance.bench = s.bench := rfl

@[simp] theorem swap_cfg (s : State) : s.swap.cfg = s.cfg := rfl
@[simp] theorem swap_mem (s : State) : s.swap.mem = s.mem := rfl
@[simp] theorem swap_liveSel (s : State) : s.swap.liveSel = 1 - s.liveSel := rfl
@[simp] theorem swap_colLatch (s : State) : s.swap.colLatch = s.colLatch := rfl
@[simp] theorem swap_cursor (s : State) : s.swap.cursor = s.cursor := rfl
@[simp] theorem swap_lastRefresh (s : State) : s.swap.lastRefresh = s.lastRefresh := rfl
@[simp] theorem swap_tickCnt (s : State) : s.swap.tickCnt = s.tickCnt := rfl
@[simp] theorem swap_pins (s : State) : s.swap.pins = s.pins := rfl
@[simp] theorem swap_trace (s : State) : s.swap.trace = s.trace := rfl
@[simp] theorem swap_chain (s : State) : s.swap.chain = s.chain := rfl
@[simp] theorem swap_script (s : State) : s.swap.script = s.script := rfl
@[simp] theorem swap_returned (s : State) : s.swap.returned = s.returned := rfl
@[simp] theorem swap_bench (s : State) : s.swap.bench = s.bench := rfl

@[simp] theorem setFb_cfg (s : State) (b : BufSel) (c : Column) (v : Byte) : (s.setFb b c v).cfg = s.cfg := rfl
@[simp] theorem setFb_mem (s : State) (b : BufSel) (c : Column) (v : Byte) :
    (s.setFb b c v).mem = Memory.write s.mem (fbKey b c) v := rfl

@[simp] theorem writeBuf_mem (s : State) (b : BufSel) (buf : FrameBuf) :
    (s.writeBuf b buf).mem = Memory.writeBuf s.mem b buf := rfl
@[simp] theorem writeBuf_cfg (s : State) (b : BufSel) (buf : FrameBuf) : (s.writeBuf b buf).cfg = s.cfg := rfl
@[simp] theorem writeBuf_liveSel (s : State) (b : BufSel) (buf : FrameBuf) : (s.writeBuf b buf).liveSel = s.liveSel := rfl
@[simp] theorem writeBuf_colLatch (s : State) (b : BufSel) (buf : FrameBuf) : (s.writeBuf b buf).colLatch = s.colLatch := rfl
@[simp] theorem writeBuf_cursor (s : State) (b : BufSel) (buf : FrameBuf) : (s.writeBuf b buf).cursor = s.cursor := rfl
@[simp] theorem writeBuf_lastRefresh (s : State) (b : BufSel) (buf : FrameBuf) :
    (s.writeBuf b buf).lastRefresh = s.lastRefresh := rfl
@[simp] theorem writeBuf_tickCnt (s : State) (b : BufSel) (buf : FrameBuf) : (s.writeBuf b buf).tickCnt = s.tickCnt := rfl
@[simp] theorem writeBuf_pins (s : State) (b : BufSel) (buf : FrameBuf) : (s.writeBuf b buf).pins = s.pins := rfl
@[simp] theorem writeBuf_trace (s : State) (b : BufSel) (buf : FrameBuf) : (s.writeBuf b buf).trace = s.trace := rfl
@[simp] theorem writeBuf_chain (s : State) (b : BufSel) (buf : FrameBuf) : (s.writeBuf b buf).chain = s.chain := rfl
@[simp] theorem writeBuf_script (s : State) (b : BufSel) (buf : FrameBuf) : (s.writeBuf b buf).script = s.script := rfl
@[simp] theorem writeBuf_returned (s : State) (b : BufSel) (buf : FrameBuf) : (s.writeBuf b buf).returned = s.returned := rfl
@[simp] theorem writeBuf_bench (s : State) (b : BufSel) (buf : FrameBuf) : (s.writeBuf b buf).bench = s.bench := rfl

@[simp] theorem resetBlock_cfg (s : State) : s.resetBlock.cfg = s.cfg := rfl
@[simp] theorem resetBlock_mem (s : State) : s.resetBlock.mem = [] := rfl
@[simp] theorem resetBlock_liveSel (s : State) : s.resetBlock.liveSel = 0 := rfl
@[simp] theorem resetBlock_colLatch (s : State) : s.resetBlock.colLatch = 0x00 := rfl
@[simp] theorem resetBlock_cursor (s : State) : s.resetBlock.cursor = 0 := rfl
@[simp] theorem resetBlock_lastRefresh (s : State) : s.resetBlock.lastRefresh = 0 := rfl
@[simp] theorem resetBlock_tickCnt (s : State) : s.resetBlock.tickCnt = 0 := rfl
@[simp] theorem resetBlock_pins (s : State) : s.resetBlock.pins = ⟨false, false, false⟩ := rfl
@[simp] theorem resetBlock_trace (s : State) : s.resetBlock.trace = [] := rfl
@[simp] theorem resetBlock_chain (s : State) : s.resetBlock.chain = s.chain := rfl
@[simp] theorem resetBlock_script (s : State) : s.resetBlock.script = s.script := rfl
@[simp] theorem resetBlock_returned (s : State) : s.resetBlock.returned = none := rfl
@[simp] theorem resetBlock_bench (s : State) : s.resetBlock.bench = s.bench := rfl

end Sys2Proof.Machine
end

