-- ==== Sys2Proof/Laws/Memory.lean ====
section
/-! SUPPORT. The laws of the frame-buffer memory: a read after a write, the canonical form is kept, and what writing a whole
buffer leaves in every cell. -/

namespace Sys2Proof.Machine

@[simp] theorem read_nil (a : Nat) : Memory.read [] a = 0x00 := rfl

theorem read_insert (m : Memory) (a b : Nat) (v : Byte) (h : ∀ c ∈ m, c.1 ≠ a) :
    Memory.read (Memory.insert m a v) b = if a = b then v else Memory.read m b := by
  induction m with
  | nil => simp [Memory.insert, Memory.read]
  | cons c m ih =>
    obtain ⟨k, w⟩ := c
    have hk : k ≠ a := h (k, w) (by simp)
    have ih := ih fun c hc => h c (by simp [hc])
    unfold Memory.insert
    split
    · simp [Memory.read]
    · simp only [Memory.read, ih]
      by_cases hb : k = b <;> by_cases ha : a = b <;> simp_all

theorem read_filter (m : Memory) (a b : Nat) :
    Memory.read (m.filter fun c => c.1 != a) b = if a = b then 0x00 else Memory.read m b := by
  induction m with
  | nil => simp
  | cons c m ih =>
    obtain ⟨k, w⟩ := c
    by_cases hk : k = a <;> by_cases hb : k = b <;> by_cases ha : a = b <;> simp_all [Memory.read]

/-- A read after a write: the value written at its key, and every other cell as before. -/
theorem read_write (m : Memory) (a b : Nat) (v : Byte) :
    Memory.read (Memory.write m a v) b = if a = b then v else Memory.read m b := by
  unfold Memory.write
  dsimp only
  split
  · next hv => rw [read_filter]; simp [hv, Memory.unlisted]
  · rw [read_insert _ _ _ _ (by simp), read_filter]; by_cases h : a = b <;> simp [h]

theorem mem_insert {m : Memory} {a : Nat} {v : Byte} {c : Host.Cell} (h : c ∈ Memory.insert m a v) :
    c = (a, v) ∨ c ∈ m := by
  induction m with
  | nil => simpa [Memory.insert] using h
  | cons d m ih =>
    obtain ⟨k, w⟩ := d
    unfold Memory.insert at h
    split at h
    · simpa using h
    · rcases List.mem_cons.1 h with h | h
      · simp [h]
      · rcases ih h with h | h <;> simp [h]

theorem pairwise_insert {m : Memory} {a : Nat} {v : Byte} (h : m.Pairwise fun c d => c.1 < d.1)
    (ha : ∀ c ∈ m, c.1 ≠ a) : (Memory.insert m a v).Pairwise fun c d => c.1 < d.1 := by
  induction m with
  | nil => simp [Memory.insert]
  | cons d m ih =>
    obtain ⟨k, w⟩ := d
    obtain ⟨hk, hm⟩ := List.pairwise_cons.1 h
    have hka : k ≠ a := ha (k, w) (by simp)
    unfold Memory.insert
    split
    · next hlt =>
      refine List.pairwise_cons.2 ⟨fun c hc => ?_, h⟩
      rcases List.mem_cons.1 hc with rfl | hc
      · exact hlt
      · exact lt_trans hlt (hk c hc)
    · next hlt =>
      refine List.pairwise_cons.2 ⟨fun c hc => ?_, ih hm fun c hc => ha c (by simp [hc])⟩
      rcases mem_insert hc with rfl | hc
      · dsimp only; omega
      · exact hk c hc

/-- The canonical form, said with its parts. -/
theorem wf_iff (m : Memory) : Memory.wf m = true ↔
    (m.Pairwise fun c d => c.1 < d.1) ∧ ∀ c ∈ m, c.1 < 16 ∧ c.2 ≠ 0x00 := by
  simp only [Memory.wf, Memory.cells, Memory.unlisted, Bool.and_eq_true, List.all_eq_true, bne_iff_ne, ne_eq]
  exact and_congr decide_eq_true_iff (forall₂_congr fun c _ => and_congr decide_eq_true_iff Iff.rfl)

/-- Every write to a cell of FB keeps the canonical form. -/
theorem wf_write {m : Memory} {a : Nat} {v : Byte} (h : Memory.wf m = true) (ha : a < 16) :
    Memory.wf (Memory.write m a v) = true := by
  rw [wf_iff] at h ⊢
  obtain ⟨hp, hm⟩ := h
  have hf : (m.filter fun c => c.1 != a).Pairwise fun c d => c.1 < d.1 := hp.filter _
  unfold Memory.write
  dsimp only
  split
  · exact ⟨hf, fun c hc => hm c (List.mem_filter.1 hc).1⟩
  · next hv =>
    refine ⟨pairwise_insert hf (by simp), fun c hc => ?_⟩
    rcases mem_insert hc with rfl | hc
    · exact ⟨ha, hv⟩
    · exact hm c (List.mem_filter.1 hc).1

/-- A key below all listed ones is unlisted. -/
theorem read_of_lt (m : Memory) (a : Nat) (h : ∀ c ∈ m, a < c.1) : Memory.read m a = 0x00 := by
  induction m with
  | nil => rfl
  | cons c m ih =>
    have := h c (by simp)
    rw [Memory.read, if_neg (by omega)]; exact ih fun c hc => h c (by simp [hc])

theorem wf_nil : Memory.wf [] = true := by decide

theorem reset_mem_wf : Memory.wf State.reset.mem = true := wf_nil

theorem fbKey_lt (b : BufSel) (c : Column) : fbKey b c < 16 := by
  have hb := b.isLt; have hc := c.isLt; unfold fbKey; omega

theorem fbKey_inj (b b' : BufSel) (c c' : Column) : fbKey b c = fbKey b' c' ↔ b = b' ∧ c = c' := by
  have hb := b.isLt; have hc := c.isLt; have hb' := b'.isLt; have hc' := c'.isLt
  rw [← BitVec.toNat_inj, ← BitVec.toNat_inj]; unfold fbKey; omega

theorem setFb_fb (s : State) (b b' : BufSel) (c c' : Column) (v : Byte) :
    (s.setFb b c v).fb b' c' = if b = b' ∧ c = c' then v else s.fb b' c' := by
  simp [State.fb, read_write, fbKey_inj]

theorem setFb_wf {s : State} {b : BufSel} {c : Column} {v : Byte} (h : Memory.wf s.mem = true) :
    Memory.wf (s.setFb b c v).mem = true := wf_write h (fbKey_lt b c)

theorem column_cases (c : Column) : c = 0 ∨ c = 1 ∨ c = 2 ∨ c = 3 ∨ c = 4 ∨ c = 5 ∨ c = 6 ∨ c = 7 := by
  revert c; decide

theorem bufSel_cases (b : BufSel) : b = 0 ∨ b = 1 := by revert b; decide

/-- Writing a whole buffer leaves every cell outside it as before. -/
theorem writeBuf_read_other (m : Memory) (b : BufSel) (buf : FrameBuf) (a : Nat) (h : ∀ c, a ≠ fbKey b c) :
    Memory.read (Memory.writeBuf m b buf) a = Memory.read m a := by
  unfold Memory.writeBuf columns
  simp only [List.foldl, read_write]
  simp [fun c => (h c).symm]

/-- Writing a whole buffer: its 8 bytes are the value's, the other buffer is as before. -/
theorem writeBuf_read (m : Memory) (b b' : BufSel) (c : Column) (buf : FrameBuf) :
    Memory.read (Memory.writeBuf m b buf) (fbKey b' c) = if b = b' then colOf buf c else Memory.read m (fbKey b' c) := by
  unfold Memory.writeBuf columns
  simp only [List.foldl, read_write, fbKey_inj]
  by_cases hb : b = b'
  · simp only [hb, true_and, if_true]
    rcases column_cases c with rfl | rfl | rfl | rfl | rfl | rfl | rfl | rfl <;> simp
  · simp [hb]

theorem writeBuf_fb (s : State) (b b' : BufSel) (c : Column) (buf : FrameBuf) :
    (s.writeBuf b buf).fb b' c = if b = b' then colOf buf c else s.fb b' c := writeBuf_read _ _ _ _ _

theorem writeBuf_wf {m : Memory} {b : BufSel} {buf : FrameBuf} (h : Memory.wf m = true) :
    Memory.wf (Memory.writeBuf m b buf) = true := by
  have hk := fbKey_lt b
  unfold Memory.writeBuf columns
  exact wf_write (wf_write (wf_write (wf_write (wf_write (wf_write (wf_write (wf_write h (hk _)) (hk _)) (hk _)) (hk _)) (hk _))
    (hk _)) (hk _)) (hk _)

/-- The two buffer indices differ (R22). -/
theorem staging_ne_live (s : State) : s.stagingSel ≠ s.liveSel := by
  unfold State.stagingSel; generalize s.liveSel = b; revert b; decide

@[simp] theorem one_sub_one_sub (b : BufSel) : 1 - (1 - b) = b := by revert b; decide

/-- COMPOSE leaves the live buffer as it was (R62, R129). -/
theorem composeInto_live (s : State) (n : Int) (c : Column) : (s.composeInto n).fb s.liveSel c = s.fb s.liveSel c := by
  unfold State.composeInto
  rw [writeBuf_fb, if_neg (staging_ne_live s)]

/-- COMPOSE fills the staging buffer (R129). -/
theorem composeInto_staging (s : State) (n : Int) (c : Column) :
    (s.composeInto n).fb s.stagingSel c = colOf (compose s.cfg n) c := by
  unfold State.composeInto
  rw [writeBuf_fb, if_pos rfl]

end Sys2Proof.Machine
end

