-- ==== Sys2Proof/Laws/Wire.lean ====
section
/-! SUPPORT. What the pin events of TX, LATCH_PULSE and SCAN do to the pins and the chain (R161, R162, R221, R222). -/

namespace Sys2Proof.Machine

theorem shift_getLsbD (ch : Chain) (d : Bool) (i : Nat) :
    (ch.shift d).sr.getLsbD i = if i = 0 then d else (decide (i < 16) && ch.sr.getLsbD (i - 1)) := by
  simp only [Chain.shift, BitVec.getLsbD_concat, BitVec.getLsbD_setWidth]
  by_cases h : i = 0
  · simp [h]
  · simp only [h, if_false]; congr 1; simp; omega

/-- One bit on the wires while CLOCK is low: the chain shifts once. -/
theorem replay_bit (p : Pins) (ch : Chain) (d : Bool) (h : p.clock = false) (es : List PinEvent) :
    replay p ch (bitEvents d ++ es) = replay ⟨d, false, p.latch⟩ (ch.shift d) es := by
  simp [bitEvents, replay, wireStep, h]

/-- Shifting bits moves nothing to the outputs. -/
theorem shifts_out (ch : Chain) (w : FrameWord) (ks : List Nat) :
    (ks.foldl (fun c k => c.shift (w.getLsbD k)) ch).out = ch.out := by
  induction ks generalizing ch with
  | nil => rfl
  | cons k ks ih => exact ih _

/-- The bits of a word on the wires while CLOCK is low, in any order of positions. -/
theorem replay_bits (p : Pins) (ch : Chain) (w : FrameWord) (ks : List Nat) (h : p.clock = false) :
    replay p ch (ks.flatMap fun k => bitEvents (w.getLsbD k)) =
      (⟨ks.foldl (fun _ k => w.getLsbD k) p.data, false, p.latch⟩, ks.foldl (fun c k => c.shift (w.getLsbD k)) ch) := by
  induction ks generalizing p ch with
  | nil => obtain ⟨d, c, l⟩ := p; simp_all [replay]
  | cons k ks ih => rw [List.flatMap_cons, replay_bit _ _ _ h, ih _ _ rfl]; rfl

theorem shift_word (ch : Chain) (w : FrameWord) :
    bitOrder.foldl (fun c k => c.shift (w.getLsbD k)) ch = ⟨w, ch.out⟩ := by
  have hout := shifts_out ch w bitOrder
  have hsr : (bitOrder.foldl (fun c k => c.shift (w.getLsbD k)) ch).sr = w := by
    apply BitVec.eq_of_getLsbD_eq
    intro i hi
    simp only [bitOrder, List.foldl, shift_getLsbD]
    interval_cases i <;> simp
  generalize bitOrder.foldl (fun c k => c.shift (w.getLsbD k)) ch = c at hsr hout
  obtain ⟨sr, out⟩ := c
  simp_all

/-- `TX(w)` while CLOCK is low: the chain's stages hold `w`, its outputs are as before (R221). -/
theorem replay_tx (p : Pins) (ch : Chain) (w : FrameWord) (h : p.clock = false) :
    replay p ch (txEvents w) = (⟨w.getLsbD 0, false, p.latch⟩, ⟨w, ch.out⟩) := by
  rw [txEvents, replay_bits _ _ _ _ h, shift_word]; rfl

/-- One bit whatever the level of CLOCK: it ends low, and the outputs are as before. -/
theorem replay_bit_any (p : Pins) (ch : Chain) (d : Bool) (es : List PinEvent) :
    ∃ sr, replay p ch (bitEvents d ++ es) = replay ⟨d, false, p.latch⟩ ⟨sr, ch.out⟩ es := by
  obtain ⟨d', c, l⟩ := p
  cases c
  · exact ⟨(ch.shift d).sr, replay_bit _ _ _ rfl _⟩
  · exact ⟨ch.sr, by simp [bitEvents, replay, wireStep]⟩

/-- `TX(w)` whatever the level of CLOCK: the pins, and the chain's outputs. -/
theorem replay_tx_any (p : Pins) (ch : Chain) (w : FrameWord) :
    ∃ sr, replay p ch (txEvents w) = (⟨w.getLsbD 0, false, p.latch⟩, ⟨sr, ch.out⟩) := by
  obtain ⟨sr, h⟩ := replay_bit_any p ch (w.getLsbD 15) ([14, 13, 12, 11, 10, 9, 8, 7, 6, 5, 4, 3, 2, 1, 0].flatMap
    fun k => bitEvents (w.getLsbD k))
  rw [replay_bits _ _ _ _ rfl] at h
  have hout := shifts_out ⟨sr, ch.out⟩ w [14, 13, 12, 11, 10, 9, 8, 7, 6, 5, 4, 3, 2, 1, 0]
  generalize [14, 13, 12, 11, 10, 9, 8, 7, 6, 5, 4, 3, 2, 1, 0].foldl (fun (c : Chain) k => c.shift (w.getLsbD k))
    (⟨sr, ch.out⟩ : Chain) = c at h hout
  obtain ⟨sr', out⟩ := c
  subst hout
  exact ⟨sr', h⟩

/-- `LATCH_PULSE()`: LATCH ends low; the outputs are loaded when it was low before (R222). -/
theorem replay_latch (p : Pins) (ch : Chain) :
    replay p ch latchEvents = (⟨p.data, p.clock, false⟩, if p.latch then ch else ch.load) := by
  obtain ⟨d, c, l⟩ := p
  cases l <;> simp [latchEvents, replay, wireStep]

/-- One whole transmission with CLOCK and LATCH low: both halves of the chain hold the word. -/
theorem replay_transmit (p : Pins) (ch : Chain) (w : FrameWord) (hc : p.clock = false) (hl : p.latch = false) :
    replay p ch (txEvents w ++ latchEvents) = (⟨w.getLsbD 0, false, false⟩, ⟨w, w⟩) := by
  rw [replay_append, replay_tx _ _ _ hc, replay_latch]
  simp [hl, Chain.load]

/-- A scan step's pin events from any pins and any chain: the chain holds the data word. -/
theorem replay_scan (cfg : Cfg) (p : Pins) (ch : Chain) (v : Byte) (c : Column) :
    replay p ch (scanEvents cfg v c) =
      (⟨(cfg.dataWord v c).getLsbD 0, false, false⟩, ⟨cfg.dataWord v c, cfg.dataWord v c⟩) := by
  obtain ⟨sr, h⟩ := replay_tx_any p ch cfg.blank
  unfold scanEvents
  rw [replay_append, replay_append p ch, h, replay_latch]
  exact replay_transmit _ _ _ rfl rfl

theorem transmit_eq_drive (s : State) (w : FrameWord) : s.transmit w = s.drive (txEvents w ++ latchEvents) :=
  (drive_append _ _ _).symm

theorem txEvents_length (w : FrameWord) : (txEvents w).length = 48 := rfl

theorem scanEvents_length (cfg : Cfg) (v : Byte) (c : Column) : (scanEvents cfg v c).length = 100 := rfl

/-- All that SCAN does (R158). -/
theorem scan_eq (s : State) : s.scan = { s with
    colLatch := s.fb s.liveSel s.cursor
    cursor := s.cursor + 1
    pins := ⟨(s.cfg.dataWord (s.fb s.liveSel s.cursor) s.cursor).getLsbD 0, false, false⟩
    chain := ⟨s.cfg.dataWord (s.fb s.liveSel s.cursor) s.cursor, s.cfg.dataWord (s.fb s.liveSel s.cursor) s.cursor⟩
    trace := s.trace ++ scanEvents s.cfg (s.fb s.liveSel s.cursor) s.cursor } := by
  unfold State.scan
  simp only [transmit_eq_drive, drive_cfg, drive_colLatch, drive_cursor, capture_cfg, capture_colLatch, capture_cursor,
    ← drive_append]
  rw [show txEvents s.cfg.blank ++ latchEvents ++ (txEvents (s.cfg.dataWord (s.fb s.liveSel s.cursor) s.cursor) ++ latchEvents)
    = scanEvents s.cfg (s.fb s.liveSel s.cursor) s.cursor from rfl, drive_eq]
  simp only [replay_scan]
  rfl

/-- SCAN is its capture, its pin events, and its advance. -/
theorem scan_eq_drive (s : State) :
    s.scan = (s.capture.drive (scanEvents s.cfg (s.fb s.liveSel s.cursor) s.cursor)).advance := by
  rw [scan_eq, drive_eq, capture_pins, capture_chain, replay_scan]; rfl

@[simp] theorem scan_cfg (s : State) : s.scan.cfg = s.cfg := by rw [scan_eq]
@[simp] theorem scan_mem (s : State) : s.scan.mem = s.mem := by rw [scan_eq]
@[simp] theorem scan_liveSel (s : State) : s.scan.liveSel = s.liveSel := by rw [scan_eq]
@[simp] theorem scan_colLatch (s : State) : s.scan.colLatch = s.fb s.liveSel s.cursor := by rw [scan_eq]
@[simp] theorem scan_cursor (s : State) : s.scan.cursor = s.cursor + 1 := by rw [scan_eq]
@[simp] theorem scan_lastRefresh (s : State) : s.scan.lastRefresh = s.lastRefresh := by rw [scan_eq]
@[simp] theorem scan_tickCnt (s : State) : s.scan.tickCnt = s.tickCnt := by rw [scan_eq]
@[simp] theorem scan_script (s : State) : s.scan.script = s.script := by rw [scan_eq]
@[simp] theorem scan_returned (s : State) : s.scan.returned = s.returned := by rw [scan_eq]
@[simp] theorem scan_bench (s : State) : s.scan.bench = s.bench := by rw [scan_eq]
@[simp] theorem scan_fb (s : State) (b : BufSel) (c : Column) : s.scan.fb b c = s.fb b c := by simp [State.fb]

end Sys2Proof.Machine
end

