-- ==== Sys2Proof/Laws/Scan.lean ====
section
/-! SUPPORT. Scan steps one after the other, what they latch, what an instruction can do at all, and when a step
completes. -/

namespace Sys2Proof.Machine

@[simp] theorem scan_trace (s : State) :
    s.scan.trace = s.trace ++ scanEvents s.cfg (s.fb s.liveSel s.cursor) s.cursor := by rw [scan_eq]
@[simp] theorem scan_pins (s : State) :
    s.scan.pins = ⟨(s.cfg.dataWord (s.fb s.liveSel s.cursor) s.cursor).getLsbD 0, false, false⟩ := by rw [scan_eq]
@[simp] theorem scan_chain (s : State) : s.scan.chain =
    ⟨s.cfg.dataWord (s.fb s.liveSel s.cursor) s.cursor, s.cfg.dataWord (s.fb s.liveSel s.cursor) s.cursor⟩ := by
  rw [scan_eq]

/-! ## Several scan steps -/

theorem scans_zero (s : State) : s.scans 0 = s := rfl

theorem scans_next (s : State) (k : Nat) : s.scans (k + 1) = s.scan.scans k := rfl

theorem column_add_succ (c : Column) (k : Nat) : c + 1 + BitVec.ofNat 3 k = c + BitVec.ofNat 3 (k + 1) := by
  apply BitVec.eq_of_toNat_eq; simp; omega

/-- Scan steps leave the configuration, the buffers and `live_sel`, and move the cursor by their number. -/
theorem scans_facts (s : State) (k : Nat) : (s.scans k).cfg = s.cfg ∧ (s.scans k).mem = s.mem ∧
    (s.scans k).liveSel = s.liveSel ∧ (s.scans k).cursor = s.cursor + BitVec.ofNat 3 k := by
  induction k generalizing s with
  | zero => simp [State.scans]
  | succ k ih =>
    obtain ⟨a, b, c, d⟩ := ih s.scan
    rw [scans_next, a, b, c, d]
    exact ⟨by simp, by simp, by simp, by rw [scan_cursor, column_add_succ]⟩

theorem scans_succ (s : State) (k : Nat) : s.scans (k + 1) = (s.scans k).scan := by
  induction k generalizing s with
  | zero => rfl
  | succ k ih => rw [scans_next, ih s.scan, ← scans_next]

theorem scanTrace_append (cfg : Cfg) (c : Column) (vs ws : List Byte) :
    scanTrace cfg c (vs ++ ws) = scanTrace cfg c vs ++ scanTrace cfg (c + BitVec.ofNat 3 vs.length) ws := by
  induction vs generalizing c with
  | nil => simp [scanTrace]
  | cons v vs ih => simp only [List.cons_append, scanTrace, ih, List.append_assoc, column_add_succ, List.length_cons]

theorem latchGaps_scan (cfg : Cfg) (v : Byte) (c : Column) (es : List PinEvent) :
    latchGaps 0 (scanEvents cfg v c ++ es) = 16 :: 16 :: latchGaps 0 es := by
  simp [scanEvents, txEvents, bitOrder, bitEvents, latchEvents, latchGaps]

/-! ## What is latched -/

theorem latched_append (p : Pins) (ch : Chain) (es fs : List PinEvent) : latchedWords p ch (es ++ fs) =
    latchedWords p ch es ++ latchedWords (replay p ch es).1 (replay p ch es).2 fs := by
  induction es generalizing p ch with
  | nil => rfl
  | cons e es ih => simp only [List.cons_append, latchedWords, replay]; split <;> simp [ih]

theorem latched_none (p : Pins) (ch : Chain) (es : List PinEvent) (h : ∀ e ∈ es, e.pin ≠ .latch) :
    latchedWords p ch es = [] := by
  induction es generalizing p ch with
  | nil => rfl
  | cons e es ih =>
    simp only [latchedWords]; rw [if_neg fun h' => h e (by simp) h'.1]; exact ih _ _ fun e he => h e (by simp [he])

/-- TX does not touch LATCH (R161). -/
theorem tx_no_latch {w : FrameWord} {e : PinEvent} (he : e ∈ txEvents w) : e.pin ≠ .latch := by
  simp only [txEvents, List.mem_flatMap] at he
  obtain ⟨k, _, he⟩ := he
  simp only [bitEvents, List.mem_cons, List.not_mem_nil, or_false] at he
  rcases he with rfl | rfl | rfl <;> simp

theorem latched_tx (p : Pins) (ch : Chain) (w : FrameWord) (hc : p.clock = false) (hl : p.latch = false) :
    latchedWords p ch (txEvents w ++ latchEvents) = [w] := by
  rw [latched_append, latched_none _ _ _ fun e he => tx_no_latch he, replay_tx _ _ _ hc]
  simp [latchEvents, latchedWords, hl, wireStep, Chain.load]

/-- A scan step latches BLANK and then its data word (R152, R156). -/
theorem latched_scan (cfg : Cfg) (p : Pins) (ch : Chain) (v : Byte) (c : Column) (hc : p.clock = false)
    (hl : p.latch = false) : latchedWords p ch (scanEvents cfg v c) = [cfg.blank, cfg.dataWord v c] := by
  unfold scanEvents
  rw [latched_append, latched_tx _ _ _ hc hl, replay_transmit _ _ _ hc hl, latched_tx _ _ _ rfl rfl]; rfl

/-- Without a rising LATCH the outputs stay (R222). -/
theorem out_of_no_latch (p : Pins) (ch : Chain) (es : List PinEvent) (h : ∀ e ∈ es, e ≠ ⟨.latch, true⟩) :
    (replay p ch es).2.out = ch.out := by
  induction es generalizing p ch with
  | nil => rfl
  | cons e es ih =>
    rw [replay, ih _ _ fun e he => h e (by simp [he])]
    have := h e (by simp)
    obtain ⟨pn, l⟩ := e
    cases pn <;> cases l <;> simp_all [wireStep]
    split <;> rfl

/-! ## What an instruction can do -/

theorem elapsed_toNat (a b : Word32) : (elapsed a b).toNat = (b.toNat + 2 ^ 32 - a.toNat) % 2 ^ 32 := by
  unfold elapsed; rw [BitVec.toNat_sub]; congr 1; have := a.isLt; omega

theorem poll_cases (s : State) (now : Word32) : s.poll now = s ∨ s.poll now = { s.scan with lastRefresh := now } := by
  unfold State.poll; split <;> simp

/-- All that an instruction that completes can do. -/
theorem exec_cases {i : Instr} {s t : State} (he : exec i s = .next t) :
    (i = .nop ∧ t = s) ∨ (∃ n, i = .compose n ∧ t = s.composeInto n) ∨ (i = .publish ∧ t = s.swap) ∨
    (∃ now, i = .poll now ∧ (t = s ∨ t = { s.scan with lastRefresh := now })) ∨
    ((i = .scan ∨ i = .tick) ∧ t = s.scan) ∨ (i = .reset ∧ t = s.resetBlock) ∨
    (∃ es, t = s.drive es ∧ ((∃ w, i = .tx w) ∨ i = .latchPulse ∨ i = .frameBlank ∨
      ∃ a b, i = .frameDataRowFirst a b ∨ i = .frameDataColFirst a b)) ∨
    (∃ g, i = .fontRead g ∧ t = { s with returned := some (fontRead s.cfg g) }) := by
  cases i <;> simp only [exec, execNop, execCompose, execPoll, execTick, execReset, execScan, execTx, execLatchPulse,
    execFontRead, execFrameDataColFirst, execFrameDataRowFirst, execFrameBlank, execPublish, Host.Outcome.next.injEq] at he
  case poll now => subst he; exact .inr (.inr (.inr (.inl ⟨now, rfl, poll_cases s now⟩)))
  case tick => split at he <;> simp at he; subst he; simp
  all_goals subst he
  all_goals try simp
  · exact ⟨_, rfl⟩
  · exact ⟨_, rfl⟩
  · exact ⟨_, transmit_eq_drive _ _⟩
  · exact ⟨_, transmit_eq_drive _ _⟩
  · exact ⟨_, transmit_eq_drive _ _⟩

/-- Every instruction completes, TICK in TIMER mode only; none writes the configuration, the script or the bench. -/
theorem exec_completes (i : Instr) (s : State) (h : i = .tick → s.cfg.scanMode = .timer) :
    ∃ t, exec i s = .next t ∧ t.cfg = s.cfg ∧ t.script = s.script ∧ t.bench = s.bench := by
  cases i
  case tick => exact ⟨s.scan, by simp [exec, execTick, h rfl], by simp, by simp, by simp⟩
  case poll now => refine ⟨s.poll now, rfl, ?_⟩; rcases poll_cases s now with h | h <;> simp [h]
  case compose n => exact ⟨_, rfl, rfl, rfl, rfl⟩
  all_goals exact ⟨_, rfl, by simp [State.tx, State.latchPulse, transmit_eq_drive],
    by simp [State.tx, State.latchPulse, transmit_eq_drive], by simp [State.tx, State.latchPulse, transmit_eq_drive]⟩

theorem decodeCommand_ne_tick (w : CmdWord) : decodeCommand w ≠ .tick := by unfold decodeCommand; split_ifs <;> simp

theorem decodeFrame_ne_tick (cfg : Cfg) (w : FrameWord) : decodeFrame cfg w ≠ .tick := by
  unfold decodeFrame; split_ifs <;> simp

theorem fetch_bench {s : State} {w : FrameWord} (h : s.bench = some w) :
    s.fetch = (decodeFrame s.cfg w, { s with bench := none }) := by unfold State.fetch; rw [h]

theorem fetch_line {s : State} {l : Line} {rest : List Line} (hb : s.bench = none) (h : s.script = l :: rest) :
    s.fetch = (decodeLine l, { s with script := rest }) := by unfold State.fetch; rw [hb, h]

theorem fetch_idle {s : State} (hb : s.bench = none) (h : s.script = []) : s.fetch = (idleInstr s.cfg, s) := by
  unfold State.fetch; rw [hb, h]

/-- All that the fetch can do: the bench's word, the script's first line, or the idle operation (log 3, log 7). -/
theorem fetch_cases (s : State) :
    (∃ w, s.bench = some w ∧ s.fetch = (decodeFrame s.cfg w, { s with bench := none })) ∨
    (s.bench = none ∧ ∃ l rest, s.script = l :: rest ∧ s.fetch = (decodeLine l, { s with script := rest })) ∨
    (s.bench = none ∧ s.script = [] ∧ s.fetch = (idleInstr s.cfg, s)) := by
  rcases Option.eq_none_or_eq_some s.bench with hb | ⟨w, hb⟩
  · by_cases hs : s.script = []
    · exact .inr (.inr ⟨hb, hs, fetch_idle hb hs⟩)
    · obtain ⟨l, rest, hs⟩ := List.exists_cons_of_ne_nil hs
      exact .inr (.inl ⟨hb, l, rest, hs, fetch_line hb hs⟩)
  · exact .inl ⟨w, hb, fetch_bench hb⟩

@[simp] theorem fetch_cfg (s : State) : s.fetch.2.cfg = s.cfg := by
  obtain ⟨w, -, h⟩ | ⟨-, l, rest, -, h⟩ | ⟨-, -, h⟩ := fetch_cases s <;> rw [h]

/-- In a well-formed configuration with an admitted script a step is the fetched instruction. -/
theorem step_eq {s : State} (hw : s.cfg.wf = true) (ha : scriptAdmitted s.cfg s.script = true) :
    step s = exec s.fetch.1 s.fetch.2 := by simp [step, hw, ha]

/-- A step that answers a next state ran the fetched instruction in a well-formed configuration. -/
theorem step_next {s t : State} (h : step s = .next t) : s.cfg.wf = true ∧ exec s.fetch.1 s.fetch.2 = .next t := by
  unfold step at h
  split at h
  · cases h
  · split at h
    · cases h
    · next hw _ => exact ⟨by simpa using hw, h⟩

/-- What the agents' fetch gives: a command, TICK or RESET (R10, R83). -/
theorem fetch_agents {s : State} (hb : s.bench = none) : s.fetch.2.bench = none ∧
    (s.fetch.1 = .nop ∨ (∃ n, s.fetch.1 = .compose n) ∨ s.fetch.1 = .publish ∨ (∃ now, s.fetch.1 = .poll now) ∨
      s.fetch.1 = .tick ∨ s.fetch.1 = .reset) := by
  obtain ⟨w, h, -⟩ | ⟨-, l, rest, -, h⟩ | ⟨-, -, h⟩ := fetch_cases s
  · rw [hb] at h; cases h
  · rw [h]
    refine ⟨hb, ?_⟩
    cases l with
    | command w => simp only [decodeLine, decodeCommand]; split_ifs <;> simp
    | tick => simp [decodeLine]
    | reset => simp [decodeLine]
  · rw [h]
    refine ⟨hb, ?_⟩
    simp only [idleInstr]; split <;> simp

/-! ## A well-formed configuration -/

/-- In TIMER mode a tick period is longer than a scan step (R8, R208). -/
theorem tickDiv_gt {cfg : Cfg} (hw : cfg.wf = true) (h : cfg.scanMode = .timer) : 101 < cfg.tickDiv := by
  have h2 : cfg.noOverrun = true := by simp only [Cfg.wf, Bool.and_eq_true] at hw; exact hw.1.2
  unfold Cfg.noOverrun at h2
  rw [h] at h2
  exact of_decide_eq_true h2

theorem wf_glyphs {cfg : Cfg} (hw : cfg.wf = true) : cfg.glyphsFit = true ∧ cfg.glyphsSeparated = true := by
  simp only [Cfg.wf, Bool.and_eq_true] at hw; exact hw.1.1

/-- One step of a run. -/
theorem run_next (M : Host.Core) (k : Nat) (s t : M.State) (h : M.step s = .next t) : M.run (k + 1) s = M.run k t := by
  rw [Host.Core.run, h]

end Sys2Proof.Machine
end

