-- ==== Sys2Proof/Laws/Clock.lean ====
section
/-! SUPPORT. The clock level: what one edge's parts do to each component, and that a scan step counted as done is SCAN. -/

namespace Sys2Proof.Machine.Clock

@[simp] theorem driveOne_cfg (c : Core) : c.driveOne.arch.cfg = c.arch.cfg := by unfold Core.driveOne; split <;> simp
@[simp] theorem driveOne_tickCnt (c : Core) : c.driveOne.arch.tickCnt = c.arch.tickCnt := by
  unfold Core.driveOne; split <;> simp
@[simp] theorem driveOne_lastRefresh (c : Core) : c.driveOne.arch.lastRefresh = c.arch.lastRefresh := by
  unfold Core.driveOne; split <;> simp
@[simp] theorem driveOne_hold (c : Core) : c.driveOne.hold = c.hold := by unfold Core.driveOne; split <;> rfl
@[simp] theorem driveOne_cycle (c : Core) : c.driveOne.cycle = c.cycle := by unfold Core.driveOne; split <;> rfl
theorem driveOne_inFlight (c : Core) : c.driveOne.inFlight = c.inFlight.tail := by
  unfold Core.driveOne; split <;> simp [*]

@[simp] theorem timer_cfg (c : Core) : c.timer.arch.cfg = c.arch.cfg := by
  unfold Core.timer Core.start; split; split <;> simp; rfl
@[simp] theorem timer_hold (c : Core) : c.timer.hold = c.hold := by unfold Core.timer Core.start; split; split <;> simp; rfl
@[simp] theorem timer_cycle (c : Core) : c.timer.cycle = c.cycle := by unfold Core.timer Core.start; split; split <;> simp; rfl
@[simp] theorem timer_lastRefresh (c : Core) : c.timer.arch.lastRefresh = c.arch.lastRefresh := by
  unfold Core.timer Core.start; split; split <;> simp; rfl

theorem timer_polled (c : Core) (h : c.arch.cfg.scanMode = .polled) : c.timer = c := by unfold Core.timer; simp [h]

theorem fires_timer (c : Core) (h : c.arch.cfg.scanMode = .timer) :
    c.fires = decide (c.arch.cfg.tickDiv ≤ c.arch.tickCnt + 1) := by unfold Core.fires; simp [h]

theorem fires_polled (c : Core) (h : c.arch.cfg.scanMode = .polled) : c.fires = false := by unfold Core.fires; simp [h]

@[simp] theorem driveOne_fires (c : Core) : c.driveOne.fires = c.fires := by unfold Core.fires; simp

/-- The timer's two cases in TIMER mode (R26, R211). -/
theorem timer_eq (c : Core) (h : c.arch.cfg.scanMode = .timer) : c.timer =
    if c.fires then Core.start { c with arch := { c.arch with tickCnt := 0 } }
    else { c with arch := { c.arch with tickCnt := c.arch.tickCnt + 1 } } := by unfold Core.timer; simp [h]

theorem timer_tickCnt (c : Core) (h : c.arch.cfg.scanMode = .timer) : c.timer.arch.tickCnt =
    if c.arch.cfg.tickDiv ≤ c.arch.tickCnt + 1 then 0 else c.arch.tickCnt + 1 := by
  rw [timer_eq c h, fires_timer c h]; simp only [decide_eq_true_eq]; split <;> rfl

@[simp] theorem accept_cfg (c : Core) (w : CmdWord) : (c.accept w).arch.cfg = c.arch.cfg := by
  unfold Core.accept; split <;> try rfl
  split <;> rfl

@[simp] theorem accept_tickCnt (c : Core) (w : CmdWord) : (c.accept w).arch.tickCnt = c.arch.tickCnt := by
  unfold Core.accept; split <;> try rfl
  split <;> rfl

/-- In TIMER mode no command starts a scan step (R172). -/
theorem accept_inFlight (c : Core) (w : CmdWord) (hm : c.arch.cfg.scanMode = .timer) :
    (c.accept w).inFlight = c.inFlight := by
  unfold Core.accept; split <;> try rfl
  simp [State.pollDue, hm]

@[simp] theorem edge_cfg (p : Ports) (c : Core) : (edge p c).arch.cfg = c.arch.cfg := by
  unfold edge; dsimp only
  split
  · rfl
  · split
    · simp
    · simp [Core.waitOne]

/-- An edge without reset. -/
theorem edge_eq (p : Ports) (c : Core) (hr : p.rst = false) : edge p c =
    { (if c.takes p then c.driveOne.timer.accept (cmdWord p.cmdOp p.cmdArg) else c.driveOne.timer.waitOne) with
      cycle := c.cycle + 1 } := by
  unfold edge; simp [hr]

/-- `tick_cnt` after an edge without reset in TIMER mode (R26). -/
theorem edge_tickCnt (p : Ports) (c : Core) (hr : p.rst = false) (h : c.arch.cfg.scanMode = .timer) :
    (edge p c).arch.tickCnt = if c.arch.cfg.tickDiv ≤ c.arch.tickCnt + 1 then 0 else c.arch.tickCnt + 1 := by
  have ht := timer_tickCnt c.driveOne (by simp [h])
  rw [driveOne_cfg, driveOne_tickCnt] at ht
  rw [edge_eq p c hr]
  split
  · simpa using ht
  · simpa [Core.waitOne] using ht

/-- While `cmd_ready` is low an edge without reset takes no command (R15, R261). -/
theorem edge_low (p : Ports) (c : Core) (hr : p.rst = false) (h : 0 < c.hold) :
    edge p c = { c.driveOne.timer with hold := c.hold - 1, cycle := c.cycle + 1 } := by
  have ht : c.takes p = false := by
    have : c.ready = false := by unfold Core.ready; simp; omega
    unfold Core.takes; rw [this, Bool.and_false]
  rw [edge_eq p c hr, ht]
  simp [Core.waitOne]

/-- `cmd_ready` comes back after as many edges as it is held low for, whatever the host presents. -/
theorem edges_hold (ps : List Ports) (c : Core) (hr : ∀ p ∈ ps, p.rst = false) (h : ps.length ≤ c.hold) :
    (edges ps c).hold = c.hold - ps.length := by
  induction ps generalizing c with
  | nil => rfl
  | cons p ps ih =>
    rw [List.length_cons] at h
    have he := congrArg Core.hold (edge_low p c (hr p (by simp)) (by omega))
    change (edge p c).hold = c.hold - 1 at he
    have := ih (edge p c) (fun q hq => hr q (by simp [hq])) (by omega)
    change (edges ps (edge p c)).hold = _
    rw [this, he, List.length_cons]; omega

theorem edges_nil (c : Core) : edges [] c = c := rfl

theorem edges_append (ps qs : List Ports) (c : Core) : edges (ps ++ qs) c = edges qs (edges ps c) := by simp [edges]

theorem edges_idle_succ (n : Nat) (c : Core) :
    edges (List.replicate (n + 1) idlePorts) c = edge idlePorts (edges (List.replicate n idlePorts) c) := by
  rw [List.replicate_succ', edges_append]; rfl

/-! ## The scan step in progress counted as done -/

theorem finish_driveOne (c : Core) : c.driveOne.finish = c.finish := by
  unfold Core.driveOne Core.finish
  split
  · rfl
  · next h => simp [h]
  · next e es hne h =>
    have hne : es ≠ [] := fun h' => hne h'
    simp [h, hne]

theorem start_finish (c : Core) : c.start.finish = c.arch.scan := by
  have hne : scanEvents c.arch.cfg (c.arch.fb c.arch.liveSel c.arch.cursor) c.arch.cursor ≠ [] := fun h => by
    have := scanEvents_length c.arch.cfg (c.arch.fb c.arch.liveSel c.arch.cursor) c.arch.cursor
    rw [h] at this; simp at this
  rw [scan_eq_drive]
  unfold Core.start Core.finish
  simp [hne]

/-- What finishing can change: pins, chain, trace, cursor. -/
theorem finish_update (c : Core) : c.finish = { c.arch with
    pins := c.finish.pins, chain := c.finish.chain, trace := c.finish.trace, cursor := c.finish.cursor } := by
  unfold Core.finish; split
  · rfl
  · simp only [drive_eq, State.advance]

@[simp] theorem finish_cfg (c : Core) : c.finish.cfg = c.arch.cfg := by rw [finish_update]
@[simp] theorem finish_lastRefresh (c : Core) : c.finish.lastRefresh = c.arch.lastRefresh := by rw [finish_update]

theorem finish_idle (c : Core) (h : c.inFlight = []) : c.finish = c.arch := by unfold Core.finish; simp [h]

/-- Finishing commutes with an update of the elements it neither reads nor writes. -/
theorem finish_of_arch (c : Core) (a : State) (hp : a.pins = c.arch.pins) (hch : a.chain = c.arch.chain)
    (ht : a.trace = c.arch.trace) (hcur : a.cursor = c.arch.cursor) :
    Core.finish { c with arch := a } = { a with
      pins := c.finish.pins, chain := c.finish.chain, trace := c.finish.trace, cursor := c.finish.cursor } := by
  unfold Core.finish
  dsimp only
  split
  · rw [← hp, ← hch, ← ht, ← hcur]
  · simp only [drive_eq, State.advance, hp, hch, ht, hcur]

theorem finish_tickCnt (c : Core) (k : Nat) :
    Core.finish { c with arch := { c.arch with tickCnt := k } } = { c.finish with tickCnt := k } :=
  (finish_of_arch c { c.arch with tickCnt := k } rfl rfl rfl rfl).trans (by rw [finish_update c])

theorem finish_swap (c : Core) : Core.finish { c with arch := c.arch.swap } = c.finish.swap :=
  (finish_of_arch c c.arch.swap rfl rfl rfl rfl).trans (by rw [finish_update c]; rfl)

theorem finish_composeInto (c : Core) (n : Int) :
    Core.finish { c with arch := c.arch.composeInto n } = c.finish.composeInto n :=
  (finish_of_arch c (c.arch.composeInto n) rfl rfl rfl rfl).trans (by rw [finish_update c]; rfl)

/-- The timer seen with the scan step done: a scan step if it fires while none is in progress, and the counter. -/
theorem timer_finish (c : Core) (h : c.fires = true → c.inFlight = []) : c.timer.finish =
    { (if c.fires then c.finish.scan else c.finish) with tickCnt := c.timer.arch.tickCnt } := by
  cases hm : c.arch.cfg.scanMode
  · rw [timer_eq c hm]
    cases hf : c.fires
    · exact finish_tickCnt c _
    · simp only [if_true]
      rw [start_finish, finish_idle c (h hf), scan_eq, scan_eq]; rfl
  · rw [timer_polled c hm, fires_polled c hm, if_neg (by simp)]; conv_lhs => rw [finish_update c]
    rw [finish_update c]

end Sys2Proof.Machine.Clock
end

