-- ==== Sys2Proof/Laws/Compositor.lean ====
section
/-! SUPPORT. The compositor: the clamped number, the digits, and the byte a glyph leaves in every column. -/

namespace Sys2Proof.Machine

theorem shownNumber_eq (n : Int) : shownNumber n = max (-9) (min n 99) := by
  unfold shownNumber clamp Config.numMin Config.numMax
  split <;> [skip; split] <;> omega

theorem digitOf_val (n : Int) (h0 : 0 ≤ n) (h : n < 10) : ((digitOf n).val : Int) = n := by
  unfold digitOf; simp [Fin.ofNat]; omega

@[simp] theorem colOf_blankBuf (c : Column) : colOf blankBuf c = 0x00 := by
  rcases column_cases c with rfl | rfl | rfl | rfl | rfl | rfl | rfl | rfl <;> rfl

theorem colOf_set (buf : FrameBuf) (i : Nat) (v : Byte) (c : Column) :
    colOf (buf.setIfInBounds i v) c = if i = c.toNat then v else colOf buf c := by
  unfold colOf
  rw [Vector.getElem_setIfInBounds]

/-- A digit glyph fills its three columns with its font bytes and leaves the others. -/
theorem colOf_putDigit (cfg : Cfg) (col : Fin 8) (d : Fin 10) (buf : FrameBuf) (c : Column) :
    colOf (putDigit cfg col d buf) c =
      if h : col.val ≤ c.toNat ∧ c.toNat < col.val + 3 then fontRead cfg (.digit d ⟨c.toNat - col.val, by omega⟩)
      else colOf buf c := by
  unfold putDigit
  simp only [List.foldl, colOf_set]
  by_cases h2 : col.val + 2 = c.toNat
  · rw [dif_pos (by omega)]; simp [h2]; congr 2; apply Fin.ext; simp; omega
  · by_cases h1 : col.val + 1 = c.toNat
    · rw [dif_pos (by omega)]; simp [h1]; rw [if_neg (by omega)]; congr 2; apply Fin.ext; simp; omega
    · by_cases h0 : col.val = c.toNat
      · rw [dif_pos (by omega)]; simp [h0]
      · rw [dif_neg (by omega)]; simp [h0]; rw [if_neg (by omega), if_neg (by omega)]

/-- The minus glyph fills its two columns and leaves the others. -/
theorem colOf_putMinus (cfg : Cfg) (col : Fin 8) (buf : FrameBuf) (c : Column) :
    colOf (putMinus cfg col buf) c =
      if h : col.val ≤ c.toNat ∧ c.toNat < col.val + 2 then fontRead cfg (.minus ⟨c.toNat - col.val, by omega⟩)
      else colOf buf c := by
  unfold putMinus
  simp only [List.foldl, colOf_set]
  by_cases h1 : col.val + 1 = c.toNat
  · rw [dif_pos (by omega)]; simp [h1]; congr 2; apply Fin.ext; simp; omega
  · by_cases h0 : col.val = c.toNat
    · rw [dif_pos (by omega)]; simp [h0]
    · rw [dif_neg (by omega)]; simp [h0]; intro h; exact absurd h h1

theorem digitOf_fin (d : Fin 10) : digitOf (d.val : Int) = d := by
  apply Fin.ext; have := digitOf_val (d.val : Int) (by omega) (by omega); omega

/-- A two-digit number selects its two digits (R122, R123). -/
theorem layout_two (t o : Fin 10) (h : 1 ≤ t.val) :
    layoutOf (shownNumber (10 * (t.val : Int) + o.val)) = .two t o := by
  rw [shownNumber_eq, show max (-9) (min (10 * (t.val : Int) + o.val) 99) = 10 * (t.val : Int) + o.val by omega]
  unfold layoutOf
  rw [if_pos (by omega), show (10 * (t.val : Int) + o.val) / 10 = t.val by omega,
    show (10 * (t.val : Int) + o.val) % 10 = o.val by omega, digitOf_fin, digitOf_fin]

/-- A one-digit number (R122, R123). -/
theorem layout_one (d : Fin 10) : layoutOf (shownNumber (d.val : Int)) = .one d := by
  rw [shownNumber_eq, show max (-9) (min (d.val : Int) 99) = d.val by omega]
  unfold layoutOf
  rw [if_neg (by omega), if_pos (by omega), digitOf_fin]

/-- A negative one-digit number (R122, R123). -/
theorem layout_neg (d : Fin 10) (h : 1 ≤ d.val) : layoutOf (shownNumber (-(d.val : Int))) = .neg d := by
  rw [shownNumber_eq, show max (-9) (min (-(d.val : Int)) 99) = -d.val by omega]
  unfold layoutOf absInt
  rw [if_neg (by omega), if_neg (by omega), if_pos (by omega), show (- -(d.val : Int)) % 10 = d.val by omega, digitOf_fin]

/-- The five bounds of R8 (a). -/
theorem glyphsFit_bounds {cfg : Cfg} (h : cfg.glyphsFit = true) : cfg.tensCol.val + 3 ≤ 8 ∧ cfg.onesCol.val + 3 ≤ 8 ∧
    cfg.singleCol.val + 3 ≤ 8 ∧ cfg.negMinusCol.val + 2 ≤ 8 ∧ cfg.negDigitCol.val + 3 ≤ 8 := by
  simpa [Cfg.glyphsFit, and_assoc] using h

/-- The two gaps of R8 (b). -/
theorem glyphsSeparated_bounds {cfg : Cfg} (h : cfg.glyphsSeparated = true) :
    cfg.tensCol.val + 4 ≤ cfg.onesCol.val ∧ cfg.negMinusCol.val + 3 ≤ cfg.negDigitCol.val := by
  simpa [Cfg.glyphsSeparated] using h

end Sys2Proof.Machine
end

