-- ==== Sys2Proof/Tests/Slice0.lean ====
section
/-! SUPPORT. The model's own tests. Expected values come from the spec: words written out from spec/30_encoding.md, vectors
"V-…" of spec/95_test_vectors.md. Then one witness per obligation that has hypotheses. -/

namespace Sys2Proof.Tests

open Sys2Proof.Machine

/-! ## Helpers -/

/-- The state an outcome answers. -/
def nextOf : Result → Option State
  | .next s => some s
  | .fault _ => none
  | .refused _ => none

/-- Why an outcome was refused. -/
def refusalOf : Result → Option Refusal
  | .next _ => none
  | .fault _ => none
  | .refused r => some r

/-- The reference configuration with the three wiring parameters given. -/
def wiring (rowLow colLow rowFirst : Bool) : Cfg :=
  { Config.reference with rowActiveLow := rowLow, colActiveLow := colLow, rowFirst := rowFirst }

/-- The reference configuration in POLLED mode with a scan interval. -/
def polled (interval : Word32) : Cfg := { Config.reference with scanMode := .polled, scanInterval := interval }

/-- A block just powered on, `SR = ABCD` and `OUT = 1234` in the chain. -/
def bench (cfg : Cfg) : State := State.powerOn cfg 0xABCD 0x1234

/-- The block powered on, about to scan column `c` of a live buffer that holds `v` there. -/
def benchAt (cfg : Cfg) (c : Column) (v : Byte) : State := { bench cfg with cursor := c, mem := Memory.write [] (fbKey 0 c) v }

/-- The bytes of buffer `b`, column 0 first (R72). -/
def frameOf (s : State) (b : BufSel) : List Byte := columns.map (s.fb b)

/-- The levels DATA is set to along pin events. -/
def dataLevels (es : List PinEvent) : List Bool := (es.filter fun e => e.pin = .data).map PinEvent.level

/-- What a scan step leaves: the captured byte, the data word on the outputs, the cursor. -/
def scanResult (r : Result) : Option (Byte × FrameWord × Column) :=
  (nextOf r).map fun t => (t.colLatch, t.chain.out, t.cursor)

/-- The LEDs lit, as (row, column). -/
def litLeds (cfg : Cfg) (out : FrameWord) : List (Nat × Nat) :=
  columns.flatMap fun c => ((List.finRange 8).filter fun i => lit cfg out i c).map fun i => (i.val, c.toNat)

/-! ## WellFormed: an ill-formed term for each check -/

theorem smoke_reference_is_wf : Config.reference.wf = true := by decide
theorem smoke_polled_is_wf : (polled 1000).wf = true := by decide
theorem smoke_tens_overflows : { Config.reference with tensCol := 6 }.glyphsFit = false := by decide
theorem smoke_ones_overflows : { Config.reference with onesCol := 6 }.glyphsFit = false := by decide
theorem smoke_single_overflows : { Config.reference with singleCol := 6 }.glyphsFit = false := by decide
theorem smoke_minus_overflows : { Config.reference with negMinusCol := 7 }.glyphsFit = false := by decide
theorem smoke_negDigit_overflows : { Config.reference with negDigitCol := 6 }.glyphsFit = false := by decide
theorem smoke_last_columns_fit : { Config.reference with tensCol := 1, onesCol := 5, singleCol := 5 }.wf = true := by decide
theorem smoke_digits_touch : { Config.reference with onesCol := 3 }.glyphsSeparated = false := by decide
theorem smoke_minus_touches : { Config.reference with negMinusCol := 2 }.glyphsSeparated = false := by decide
/-- R208: `TICK_DIV >= 102`. -/
theorem smoke_tick_overruns : { Config.reference with tTick := 101000 }.noOverrun = false ∧
    { Config.reference with tTick := 102000 }.noOverrun = true := by decide
/-- R8 (d): less than 20 ms, not 20 ms. -/
theorem smoke_timer_refresh_slow : { Config.reference with tTick := 2500000 }.refreshFast = false ∧
    { Config.reference with tTick := 2499999 }.wf = true := by decide
theorem smoke_polled_refresh_slow : (polled 2500).refreshFast = false ∧ (polled 2499).wf = true := by decide
theorem smoke_each_check_counts : { Config.reference with singleCol := 6 }.wf = false ∧
    { Config.reference with onesCol := 3 }.wf = false ∧ { Config.reference with tTick := 101000 }.wf = false ∧
    (polled 2500).wf = false := by decide
theorem smoke_operand_too_large : (Instr.compose 2147483648).wf Config.reference = false ∧
    (Instr.compose 2147483647).wf Config.reference = true := by decide
theorem smoke_operand_too_small : (Instr.compose (-2147483649)).wf Config.reference = false ∧
    (Instr.compose (-2147483648)).wf Config.reference = true := by decide
theorem smoke_wrong_byte_order : (Instr.frameDataColFirst 0x0F 0x01).wf Config.reference = false ∧
    (Instr.frameDataRowFirst 0x0F 0x01).wf (wiring false false false) = false := by decide
theorem smoke_two_columns : (Instr.frameDataRowFirst 0x0F 0x03).wf Config.reference = false ∧
    (Instr.frameDataRowFirst 0x0F 0xFE).wf Config.reference = false ∧
    (Instr.frameDataRowFirst 0x0F 0xFE).wf (wiring false true true) = true := by decide
theorem smoke_tick_in_polled_script : scriptAdmitted (polled 1000) [.reset, .tick] = false ∧
    scriptAdmitted Config.reference [.reset, .tick] = true := by decide

/-! ## Decoding: words written out from the spec -/

/-- `op = 00`, any `arg` (R79, R81). -/
theorem test_decode_nop : decodeCommand 0b00_11011110101011011011111011101111#34 = .nop := by decide
/-- `op = 01`, `arg = 0000002A` (R84, P1). -/
theorem test_decode_compose : decodeCommand 0b01_00000000000000000000000000101010#34 = .compose 42 := by decide
/-- `arg = 80000000` is the most negative operand (V-C30). -/
theorem test_decode_compose_min : decodeCommand 0b01_10000000000000000000000000000000#34 = .compose (-2147483648) := by decide
/-- `op = 10`, any `arg` (R79, R81). -/
theorem test_decode_publish : decodeCommand 0b10_11111111111111111111111111111111#34 = .publish := by decide
/-- `op = 11`, `arg = FFFFFFFF`, unsigned (R80, V-T8). -/
theorem test_decode_poll : decodeCommand 0b11_11111111111111111111111111111111#34 = .poll 4294967295 := by decide
/-- `{rb, cb}` = `{0F, 01}` (R73, wiring A). -/
theorem test_decode_row_first : decodeFrame (wiring false false true) 0b00001111_00000001#16 =
    .frameDataRowFirst 0x0F 0x01 := by decide
/-- `{cb, rb}` = `{01, 0F}` (R73, wiring D). -/
theorem test_decode_col_first : decodeFrame (wiring false false false) 0b00000001_00001111#16 =
    .frameDataColFirst 0x0F 0x01 := by decide
/-- `FF00` is BLANK in wiring B, a data word in wiring A (R76). -/
theorem test_decode_blank : decodeFrame (wiring true false true) 0b11111111_00000000#16 = .frameBlank ∧
    decodeFrame (wiring false false true) 0b11111111_00000000#16 = .frameDataRowFirst 0xFF 0x00 := by decide
theorem test_decode_events : decodeLine .tick = .tick ∧ decodeLine .reset = .reset := by decide
/-- No line stands for the operations of R83. -/
theorem test_no_encoding : encode Config.reference .scan = none ∧ encode Config.reference (.tx 0x1234) = none ∧
    encode Config.reference .latchPulse = none ∧ encode Config.reference (.fontRead (.minus 0)) = none := by decide
theorem test_decode_rejects : decodeWord Config.reference 33 0 = .error .noFormatOfThisWidth ∧
    decodeWord Config.reference 40 0x400000000 = .error .bitsAboveTheFormat ∧
    decodeWord Config.reference 16 0x10000 = .error .bitsAboveTheFormat := by
  refine ⟨rfl, rfl, rfl⟩
/-- The BLANK column of the table in 4.1. -/
theorem test_blank_of_every_wiring :
    [(wiring false false true).blank, (wiring false false false).blank, (wiring false true true).blank,
      (wiring false true false).blank, (wiring true false true).blank, (wiring true false false).blank,
      (wiring true true true).blank, (wiring true true false).blank] =
    [0x0000, 0x0000, 0x00FF, 0xFF00, 0xFF00, 0x00FF, 0xFFFF, 0xFFFF] := by decide
/-- The column bytes of the table in 4.1. -/
theorem test_column_bytes : columns.map (wiring false false true).colSelect = [0x01, 0x02, 0x04, 0x08, 0x10, 0x20, 0x40, 0x80] ∧
    columns.map (wiring false true true).colSelect = [0xFE, 0xFD, 0xFB, 0xF7, 0xEF, 0xDF, 0xBF, 0x7F] := by decide

/-- The constants of R6 are the sizes the definitions have. -/
theorem test_constants : columns.length = Config.nCols ∧ bitOrder.length = Config.frameBits ∧
    (List.finRange 8).length = Config.nRows ∧ Config.refFont[0].toList.length = Config.glyphW ∧
    Config.refMinus.toList.length = Config.minusW ∧ Config.refFont.toList.length + 1 = Config.nGlyphs := by decide

/-! ## Font and compositor -/

/-- R107: the reference font is the seven-segment figures. -/
theorem test_reference_font : digitSegments.toList.map Segments.glyph = Config.refFont.toList := by decide

/-- V-C10 to V-C14: zero, the one-digit and two-digit ends. -/
theorem test_compose_in_range : ([0, 9, 10, 11, 99] : List Int).map (fun n => (compose Config.reference n).toList) =
    [[0x00, 0x00, 0x7F, 0x41, 0x7F, 0x00, 0x00, 0x00], [0x00, 0x00, 0x4F, 0x49, 0x7F, 0x00, 0x00, 0x00],
      [0x00, 0x00, 0x7F, 0x00, 0x7F, 0x41, 0x7F, 0x00], [0x00, 0x00, 0x7F, 0x00, 0x00, 0x00, 0x7F, 0x00],
      [0x4F, 0x49, 0x7F, 0x00, 0x4F, 0x49, 0x7F, 0x00]] := by decide
/-- V-C15, V-C16, V-C20, V-C25, V-C26, V-C30: negatives and saturation. -/
theorem test_compose_negative_and_saturated :
    ([-1, -9, 100, 2147483647, -10, -2147483648] : List Int).map (fun n => (compose Config.reference n).toList) =
    [[0x00, 0x08, 0x08, 0x00, 0x00, 0x00, 0x7F, 0x00], [0x00, 0x08, 0x08, 0x00, 0x4F, 0x49, 0x7F, 0x00],
      [0x4F, 0x49, 0x7F, 0x00, 0x4F, 0x49, 0x7F, 0x00], [0x4F, 0x49, 0x7F, 0x00, 0x4F, 0x49, 0x7F, 0x00],
      [0x00, 0x08, 0x08, 0x00, 0x4F, 0x49, 0x7F, 0x00], [0x00, 0x08, 0x08, 0x00, 0x4F, 0x49, 0x7F, 0x00]] := by decide

/-! ## One step of each instruction -/

/-- V-P7, and the step takes the line off the script. -/
theorem test_nop : nextOf (step { bench Config.reference with script := [.command 0x0DEADBEEF, .tick] }) =
    some { bench Config.reference with script := [.tick] } := by decide +kernel

/-- V-P1. -/
theorem test_compose : (nextOf (exec (.compose 42) (bench Config.reference))).map
      (fun t => (frameOf t 0, frameOf t 1, t.liveSel)) =
    some ([0x00, 0x00, 0x00, 0x00, 0x00, 0x00, 0x00, 0x00], [0x0F, 0x08, 0x7F, 0x00, 0x79, 0x49, 0x4F, 0x00], 0) := by
  decide +kernel
/-- V-P4: with `FB[1]` live, the frame of -3 in staging is wholly replaced by the frame of 7. -/
theorem test_compose_replaces : (nextOf (exec (.compose 7)
      { bench Config.reference with liveSel := 1, mem := [(1, 0x08), (2, 0x08), (4, 0x49), (5, 0x49), (6, 0x7F), (8, 0x0F)] })).map
      (fun t => (frameOf t 0, t.mem)) =
    some ([0x00, 0x00, 0x01, 0x01, 0x7F, 0x00, 0x00, 0x00], [(2, 0x01), (3, 0x01), (4, 0x7F), (8, 0x0F)]) := by decide +kernel

/-- V-P2, V-P8. -/
theorem test_publish : nextOf (exec .publish (bench Config.reference)) = some { bench Config.reference with liveSel := 1 } := by
  decide
/-- V-P5. -/
theorem test_publish_back : (nextOf (exec .publish { bench Config.reference with liveSel := 1 })).map State.liveSel = some 0 := by
  decide

/-- V-T2, V-T3, V-T7: the boundary, and one scan only however late. -/
theorem test_poll_boundary :
    let run (last now : Word32) := (nextOf (exec (.poll now) { bench (polled 1000) with lastRefresh := last })).map
      fun t => (t.lastRefresh, t.cursor)
    run 0 999 = some (0, 0) ∧ run 0 1000 = some (1000, 1) ∧ run 2100 1000000 = some (1000000, 1) := by decide +kernel
/-- V-T9, V-T10, V-T11, V-T13: across the wrap, backwards, and with a zero interval. -/
theorem test_poll_wrap :
    let run (interval last now : Word32) := (nextOf (exec (.poll now)
      { bench (polled interval) with lastRefresh := last })).map fun t => (t.lastRefresh, t.cursor)
    run 1000 4294967040 512 = some (4294967040, 0) ∧ run 1000 4294967040 744 = some (744, 1) ∧
      run 1000 5000 4000 = some (4000, 1) ∧ run 0 0 0 = some (0, 1) := by decide +kernel

/-- V-R2: the first TICK latches `0000` and then `0001`. -/
theorem test_tick : (nextOf (exec .tick (bench Config.reference))).map
      (fun t => (latchedWords ⟨false, false, false⟩ ⟨0xABCD, 0x1234⟩ t.trace, t.cursor)) =
    some ([0x0000, 0x0001], 1) := by decide +kernel
/-- R170. -/
theorem test_tick_polled : refusalOf (exec .tick (bench (polled 1000))) = some .tickInPolledMode := by decide

/-- V-R1: the chain is kept. -/
theorem test_reset : (nextOf (exec .reset { benchAt Config.reference 7 0x49 with
      liveSel := 1, colLatch := 0x49, lastRefresh := 5, tickCnt := 6, pins := ⟨true, true, true⟩,
      trace := [⟨.data, true⟩] })) = some (bench Config.reference) := by decide +kernel

/-- V-S1 (wrap), V-S3, V-S4. -/
theorem test_scan : scanResult (exec .scan (benchAt (wiring false false true) 7 0x00)) = some (0x00, 0x0080, 0) ∧
    scanResult (exec .scan (benchAt (wiring false false true) 0 0xFF)) = some (0xFF, 0xFF01, 1) ∧
    scanResult (exec .scan (benchAt (wiring true false true) 0 0xFF)) = some (0xFF, 0x0001, 1) := by decide +kernel
/-- V-S5, V-S6. -/
theorem test_scan_wirings : scanResult (exec .scan (benchAt (wiring false true false) 3 0xA5)) = some (0xA5, 0xF7A5, 4) ∧
    scanResult (exec .scan (benchAt (wiring true true true) 5 0x80)) = some (0x80, 0x7FDF, 6) := by decide +kernel

/-- 4.4: the DATA levels of `TX(4F40)`, first bit first, and 48 events. -/
theorem test_tx_levels : (nextOf (exec (.tx 0x4F40) (bench Config.reference))).map
      (fun t => (dataLevels t.trace, t.trace.length)) =
    some ([false, true, false, false, true, true, true, true, false, true, false, false, false, false, false, false], 48) := by
  decide +kernel
/-- Section 5: from any `SR`, `TX(1234)` gives `SR = 1234`; OUT is as before. -/
theorem test_tx_chain : (nextOf (exec (.tx 0x5678) (bench Config.reference))).map State.chain = some ⟨0x5678, 0x1234⟩ := by
  decide +kernel

/-- Section 5: a rising latch loads OUT. -/
theorem test_latch_pulse : (nextOf (exec .latchPulse (bench Config.reference))).map (fun t => (t.chain, t.trace)) =
    some (⟨0xABCD, 0xABCD⟩, [⟨.latch, true⟩, ⟨.latch, false⟩]) := by decide +kernel

/-- Section 5: one rising clock from `ABCD`; falling edges and DATA writes change nothing. -/
theorem test_pin_events : (Chain.shift ⟨0xABCD, 0⟩ true).sr = 0x579B ∧ (Chain.shift ⟨0xABCD, 0⟩ false).sr = 0x579A ∧
    ((bench Config.reference).pinEvent ⟨.data, true⟩).chain = ⟨0xABCD, 0x1234⟩ ∧
    (State.pinEvent { bench Config.reference with pins := ⟨true, true, true⟩ } ⟨.clock, false⟩).chain = ⟨0xABCD, 0x1234⟩ ∧
    (State.pinEvent { bench Config.reference with pins := ⟨true, true, true⟩ } ⟨.latch, false⟩).chain = ⟨0xABCD, 0x1234⟩ := by
  decide

/-- Section 2: `FontRead(2, 0) = 79`, `FontRead(9, 2) = 7F`, `FontRead(10, 1) = 08`. -/
theorem test_font_read : ((nextOf (exec (.fontRead (.digit 2 0)) (bench Config.reference))).bind State.returned,
      (nextOf (exec (.fontRead (.digit 9 2)) (bench Config.reference))).bind State.returned,
      (nextOf (exec (.fontRead (.minus 1)) (bench Config.reference))).bind State.returned) =
    (some 0x79, some 0x7F, some 0x08) := by decide
/-- Section 2: `(10, 2)` is not valid. -/
theorem test_font_address : glyphCol? 10 1 = some (.minus 1) ∧ glyphCol? 10 2 = none ∧ glyphCol? 11 0 = none := by decide

/-- V-M1, V-M7: the two byte orders put the same row byte on the rows. -/
theorem test_frame_row_first : (nextOf (exec (.frameDataRowFirst 0x0F 0x01) (bench (wiring false false true)))).map
      (fun t => t.chain.out) = some 0x0F01 := by decide +kernel
theorem test_frame_col_first : (nextOf (exec (.frameDataColFirst 0x0F 0x01) (bench (wiring false false false)))).map
      (fun t => t.chain.out) = some 0x010F := by decide +kernel
/-- V-M4: the BLANK of wiring B. -/
theorem test_frame_blank : (nextOf (exec .frameBlank (bench (wiring true false true)))).map (fun t => t.chain.out) =
    some 0xFF00 := by decide +kernel

/-- V-M1, V-M2, V-M4, V-M5, V-M7, V-M8. -/
theorem test_lit : litLeds (wiring false false true) 0x0F01 = [(0, 0), (1, 0), (2, 0), (3, 0)] ∧
    litLeds (wiring true false true) 0xF001 = [(0, 0), (1, 0), (2, 0), (3, 0)] ∧
    litLeds (wiring true false true) 0xFF00 = [] ∧ litLeds (wiring false false true) 0x0080 = [] ∧
    litLeds (wiring false false false) 0x010F = [(0, 0), (1, 0), (2, 0), (3, 0)] ∧
    litLeds (wiring true true true) 0x7FDF = [(7, 5)] := by decide

/-! ## Step, fetch, scripts, clock -/

theorem test_step_refuses_ill_formed : refusalOf (step (bench { Config.reference with singleCol := 6 })) =
    some .illFormedConfig := by decide
theorem test_step_refuses_tick : refusalOf (step { bench (polled 1000) with script := [.reset, .tick] }) =
    some .tickInPolledMode := by decide
/-- The word stored by `withFetchWord` is the next to run. -/
theorem test_with_fetch_word : (nextOf (step ((bench Config.reference).withFetchWord 40 0x200000000))).map State.liveSel =
    some 1 := by decide
/-- Log 7: a frame word on the bench runs before the script and is taken off. -/
theorem test_with_fetch_word_frame : (nextOf (step (State.withFetchWord { bench Config.reference with script := [.tick] } 16 0x0F01))).map
    (fun t => (t.chain.out, t.bench, t.script, t.cursor)) = some (0x0F01, none, [.tick], 0) := by decide +kernel
theorem test_script_text : parseScript ["SHOW 42 # now".toList, "".toList, "POLL 0x3E8".toList, "TICKS 3".toList] =
    .ok [.display 42, .poll 1000, .ticks 3] := by rfl
theorem test_script_errors : parseLine "SCAN".toList = .error .unknownOperation ∧
    parseLine "COMPOSE -0x3".toList = .error .badOperand ∧ parseLine "POLL -1".toList = .error .badOperand ∧
    parseLine "POLL 4294967296".toList = .error .badOperand := by refine ⟨rfl, rfl, rfl, rfl⟩
/-- P2's `COMPOSE -3` is `1_FFFFFFFD`. -/
theorem test_script_words : assemble [.display (-3), .ticks 2] =
    [.command 0x1FFFFFFFD, .command 0x200000000, .tick, .tick] := by decide
/-- R260: on the edge the timer fires the byte is captured and no pin moves; R261: the scan step holds 100 events. -/
theorem test_edge_fires : let c := Clock.edge Clock.idlePorts ⟨{ bench Config.reference with tickCnt := 999 }, [], 0, 0⟩
    (c.arch.tickCnt, c.inFlight.length, c.arch.trace) = (0, 100, []) := by decide +kernel

/-! ## Witnesses: the hypotheses of each obligation can be met -/

/-- O6: due at 1000, not due at 999; TIMER mode. -/
theorem witness_PollScansOnceWhenTheIntervalHasElapsed : (bench (polled 1000)).cfg.scanMode = .polled ∧
    (bench (polled 1000)).cfg.scanInterval.toNat ≤ ((1000 : Word32).toNat + 2 ^ 32 - (bench (polled 1000)).lastRefresh.toNat) % 2 ^ 32 ∧
    ((999 : Word32).toNat + 2 ^ 32 - (bench (polled 1000)).lastRefresh.toNat) % 2 ^ 32 < (bench (polled 1000)).cfg.scanInterval.toNat ∧
    (bench Config.reference).cfg.scanMode = .timer := by
  decide
/-- O7: V-T10 and V-T9 in true time: 4294967040 to 4294968040 and to 4294967808. -/
theorem witness_PollIsRightAcrossAWrapOfTheHostClock :
    let s : State := { bench (polled 1000) with lastRefresh := 4294967040 }
    s.cfg.scanMode = .polled ∧ s.lastRefresh = BitVec.ofNat 32 4294967040 ∧ 4294967040 ≤ 4294968040 ∧
      4294968040 - 4294967040 < 2 ^ 32 ∧ s.cfg.scanInterval.toNat ≤ 4294968040 - 4294967040 ∧
      4294967808 - 4294967040 < s.cfg.scanInterval.toNat := by decide
/-- O8: the two modes, and a POLL that is due. -/
theorem witness_OnlyTheModesOwnMechanismStartsScanSteps : (bench Config.reference).cfg.scanMode = .timer ∧
    (bench (polled 1000)).cfg.scanMode = .polled ∧ (bench (polled 1000)).cfg.scanInterval.toNat ≤
      ((1000 : Word32).toNat + 2 ^ 32 - (bench (polled 1000)).lastRefresh.toNat) % 2 ^ 32 := by decide
/-- O9: the POLL word with the largest `now` in TIMER mode. -/
theorem witness_EveryCommandWordCompletes : cmdOp 0x3FFFFFFFF = 0b11 ∧ (bench Config.reference).cfg.scanMode = .timer := by decide
theorem witness_TickIsAScanStepInTimerMode : (bench Config.reference).cfg.scanMode = .timer := by decide
/-- O12, O17, O21, O23, O37: pins low. -/
theorem witness_TxShiftsTheWordMostSignificantBitFirst : (bench Config.reference).pins.clock = false ∧
    (bench Config.reference).pins.latch = false := by decide
theorem witness_FrameWordsAreTransmittedAndLatched : (bench Config.reference).pins.clock = false ∧
    (bench Config.reference).pins.latch = false := by decide
theorem witness_FontAddressesAreTheElevenGlyphs : (11 ≤ 11 ∨ 3 ≤ 0 ∨ (11 = 10 ∧ 0 = 2)) ∧ (11 ≤ 0 ∨ 3 ≤ 3 ∨ (0 = 10 ∧ 3 = 2)) ∧
    (11 ≤ 10 ∨ 3 ≤ 2 ∨ (10 = 10 ∧ 2 = 2)) := by decide
theorem witness_RefreshCycleLatchesEveryColumnOnce : (bench Config.reference).pins.clock = false ∧
    (bench Config.reference).pins.latch = false := by decide
/-- O23: each clause at its boundaries, 48, 49, 98, 99. -/
theorem witness_BetweenTheTwoLatchPulsesNoLedIsLit :
    let s := benchAt Config.reference 0 0x0F
    let out (n : Nat) := (s.capture.drive ((scanEvents s.cfg (s.fb s.liveSel s.cursor) s.cursor).take n)).chain.out
    s.pins.clock = false ∧ s.pins.latch = false ∧ out 48 = 0x1234 ∧ out 49 = 0x0000 ∧ out 98 = 0x0000 ∧ out 99 = 0x0F01 := by
  decide +kernel
/-- O25: from the dark power-on state a COMPOSE and a SCAN. -/
theorem witness_DarkUntilThePublish :
    let s := bench Config.reference
    (∀ c, s.fb s.liveSel c = 0x00) ∧ Instr.compose 42 ≠ .publish ∧ exec (.compose 42) s = .next (s.composeInto 42) ∧
      Instr.scan ≠ .publish ∧ exec .scan s = .next s.scan :=
  ⟨by decide, by decide, rfl, by decide, rfl⟩
/-- O20: an operation that is none of the scan steps. -/
theorem witness_ScanStepsDriveTheColumnsInOrder : exec (.compose 42) (bench Config.reference) =
    .next ((bench Config.reference).composeInto 42) := rfl
theorem witness_ComposeSaturates : (99 : Int) < 100 ∧ (-10 : Int) < -9 := by decide
/-- O32: the smallest and the largest tens digit, and a column of each clause. -/
theorem witness_TwoDigitLayoutShowsTensAndOnes : Config.reference.glyphsFit = true ∧ Config.reference.glyphsSeparated = true ∧
    1 ≤ (1 : Fin 10).val ∧ 1 ≤ (9 : Fin 10).val ∧ (2 : Column).toNat = Config.reference.tensCol.val + (2 : Fin 3).val ∧
    (6 : Column).toNat = Config.reference.onesCol.val + (2 : Fin 3).val ∧
    (∀ k : Fin 3, (3 : Column).toNat ≠ Config.reference.tensCol.val + k.val ∧
      (3 : Column).toNat ≠ Config.reference.onesCol.val + k.val) := by decide
theorem witness_OneDigitLayoutShowsTheGlyph : Config.reference.glyphsFit = true ∧
    (4 : Column).toNat = Config.reference.singleCol.val + (2 : Fin 3).val ∧
    (∀ k : Fin 3, (5 : Column).toNat ≠ Config.reference.singleCol.val + k.val) := by decide
theorem witness_NegativeLayoutShowsMinusAndDigit : Config.reference.glyphsFit = true ∧ Config.reference.glyphsSeparated = true ∧
    1 ≤ (1 : Fin 10).val ∧ (2 : Column).toNat = Config.reference.negMinusCol.val + (1 : Fin 2).val ∧
    (4 : Column).toNat = Config.reference.negDigitCol.val + (0 : Fin 3).val ∧
    (∀ j : Fin 2, (3 : Column).toNat ≠ Config.reference.negMinusCol.val + j.val) ∧
    (∀ k : Fin 3, (3 : Column).toNat ≠ Config.reference.negDigitCol.val + k.val) := by decide
/-- O35: 10, -1, and the default layout; 9 and -1 for its second and third clause. -/
theorem witness_ABlankColumnSeparatesTheGlyphs : Config.reference.glyphsFit = true ∧ Config.reference.glyphsSeparated = true ∧
    (10 : Int) ≤ 10 ∧ (-1 : Int) < 0 ∧ Config.reference.tensCol = 0 ∧ Config.reference.onesCol = 4 ∧
    Config.reference.singleCol = 2 ∧ Config.reference.negMinusCol = 1 ∧ Config.reference.negDigitCol = 4 ∧ (9 : Int) < 10 := by
  decide
theorem witness_ComposeTwiceIsComposeOnce : Memory.wf [(8, 0x0F), (15, 0x01)] = true ∧ Memory.wf (bench Config.reference).mem = true ∧
    (∀ a, Memory.read [(8, 0x0F), (15, 0x01)] a = Memory.read [(8, 0x0F), (15, 0x01)] a) :=
  ⟨by decide, by decide, fun _ => rfl⟩
theorem witness_TransmittingTwiceLeavesTheSameChain : (bench Config.reference).pins.clock = false ∧
    (bench Config.reference).pins.latch = false := by decide
/-- O38: a memory that differs in the staging buffer. -/
theorem witness_ScanNeverReadsTheStagingBuffer : let s := bench Config.reference
    (∀ c, Memory.read [(15, 0x49)] (fbKey s.liveSel c) = Memory.read s.mem (fbKey s.liveSel c)) ∧ s.mem ≠ [(15, 0x49)] := by
  decide
/-- O39: another font column, layout and mode with the same wiring. -/
theorem witness_ScanDependsOnNeitherFontNorLayout : let cfg := { polled 0 with singleCol := 3, minus := #v[0x01, 0x01] }
    cfg.rowActiveLow = Config.reference.rowActiveLow ∧ cfg.colActiveLow = Config.reference.colActiveLow ∧
      cfg.rowFirst = Config.reference.rowFirst ∧ cfg ≠ Config.reference := by decide
/-- O26: a PUBLISH, and an operation that is neither PUBLISH nor RESET. -/
theorem witness_OnlyPublishAndResetWriteLiveSel : exec .publish (bench Config.reference) = .next (bench Config.reference).swap ∧
    exec .nop (bench Config.reference) = .next (bench Config.reference) ∧ Instr.nop ≠ .publish ∧ Instr.nop ≠ .reset :=
  ⟨rfl, rfl, by decide, by decide⟩
/-- O27: a scan step moves the cursor. -/
theorem witness_TheCursorOnlyAdvancesByOneOrIsReset : exec .scan (bench Config.reference) = .next (bench Config.reference).scan ∧
    (bench Config.reference).scan.cursor ≠ (bench Config.reference).cursor := ⟨rfl, by rw [scan_cursor]; decide⟩
/-- O28, O29: COMPOSE, and a scan step, which writes no buffer. -/
theorem witness_OnlyComposeAndResetWriteFrameBuffers :
    exec (.compose 42) (bench Config.reference) = .next ((bench Config.reference).composeInto 42) ∧
    exec .scan (bench Config.reference) = .next (bench Config.reference).scan ∧ Instr.scan ≠ .reset ∧
    Instr.compose 42 ≠ .reset ∧ ∀ n, Instr.scan ≠ .compose n := ⟨rfl, rfl, by decide, by decide, fun _ h => by cases h⟩
theorem witness_PinsAndChainAreFunctionsOfTheTrace : exec .scan (bench Config.reference) = .next (bench Config.reference).scan ∧
    Instr.scan ≠ .reset := ⟨rfl, by decide⟩
theorem witness_TheConfigurationIsNeverWritten : exec .reset (bench Config.reference) = .next (bench Config.reference).resetBlock :=
  rfl
/-- O42: one instruction of each encodable form, and words of each clause. -/
theorem witness_DecodeAndEncodeAgree : (Instr.compose (-2147483648)).wf Config.reference = true ∧
    encode Config.reference (.compose (-2147483648)) = some (.line (.command 0x180000000)) ∧
    (Instr.frameDataRowFirst 0xFF 0x80).wf Config.reference = true ∧
    encode Config.reference (.frameDataRowFirst 0xFF 0x80) = some (.frame 0xFF80) ∧
    (Instr.frameDataColFirst 0xFF 0x7F).wf (wiring false true false) = true ∧
    encode (wiring false true false) (.frameDataColFirst 0xFF 0x7F) = some (.frame 0x7FFF) ∧
    cmdOp 0x1FFFFFFFF = 0b01 ∧ cmdOp 0x3FFFFFFFF = 0b11 ∧ cmdArg 0x200000000 = 0 := by decide
theorem witness_ScriptOperationsExpandAsTheSpecSays : fitsPort (-2147483648) = true ∧ fitsPort 2147483647 = true := by decide
/-- O46: a line, an idle TIMER block, an idle POLLED block, a word on the bench. -/
theorem witness_AStepRunsTheDecodedLine : Config.reference.wf = true ∧ scriptAdmitted Config.reference [.tick] = true ∧
    (bench Config.reference).bench = none ∧
    (bench Config.reference).script = [] ∧ (bench Config.reference).cfg.scanMode = .timer ∧ (polled 1000).wf = true ∧
    scriptAdmitted (polled 1000) [] = true ∧ (bench (polled 1000)).script = [] ∧ (bench (polled 1000)).cfg.scanMode = .polled ∧
    { bench Config.reference with bench := some 0x0F01 }.bench = some 0x0F01 := by
  decide
/-- O47: 101 and 102 cycles a tick, and the bounds of R8 at their last values (the smoke tests above hold the first refused ones). -/
theorem witness_IllFormedConfigurationsAndScriptsAreRefused : { Config.reference with tTick := 101000 }.wf = false ∧
    { Config.reference with tTick := 102000 }.wf = true ∧ { Config.reference with tTick := 2499999 }.wf = true ∧
    (polled 1000).wf = true ∧ (polled 1000).scanMode = .polled ∧ Line.tick ∈ [Line.reset, .tick] := by decide
theorem witness_EveryStepCompletes : (bench Config.reference).cfg.wf = true ∧
    scriptAdmitted (bench Config.reference).cfg (bench Config.reference).script = true := by decide
theorem witness_AnIdleTimerBlockScansOnItsOwn : (bench Config.reference).cfg.wf = true ∧
    (bench Config.reference).cfg.scanMode = .timer ∧ (bench Config.reference).script = [] ∧
    (bench Config.reference).bench = none := by decide
theorem witness_InvariantHoldsAtReset : (wiring true false true).wf = true ∧ (polled 0).wf = true := by decide

/-- The power-on state after one scan step, with the commands of `SHOW 42` to come. -/
def afterOneScan : State := { (bench Config.reference).scan with script := [.command 0x10000002A, .command 0x200000000] }

theorem afterOneScan_inv : afterOneScan.Inv where
  memory := by decide +kernel
  benchIdle := by decide +kernel
  timer := fun _ => by decide +kernel
  pinsLow := by decide +kernel
  frames := fun b => .inl (by revert b; decide +kernel)
  trace := ⟨[0x00], by decide +kernel, by decide +kernel, by decide +kernel, by decide +kernel, by decide +kernel, by decide +kernel⟩

/-- O19: an invariant state with a scan step in its trace. -/
theorem witness_SixteenClocksBeforeEveryLatch : afterOneScan.Inv ∧ latchGaps 0 afterOneScan.trace = [16, 16] :=
  ⟨afterOneScan_inv, by decide +kernel⟩
theorem witness_EveryStepKeepsTheInvariant : afterOneScan.Inv ∧
    (nextOf (step afterOneScan)).map (fun t => frameOf t 1) = some [0x0F, 0x08, 0x7F, 0x00, 0x79, 0x49, 0x4F, 0x00] :=
  ⟨afterOneScan_inv, by decide +kernel⟩
theorem witness_OnlyOneColumnIsSelectedAfterTheFirstScan : afterOneScan.Inv ∧ afterOneScan.trace ≠ [] :=
  ⟨afterOneScan_inv, by decide +kernel⟩

/-- O53, O56: in TIMER mode a scan step in progress at the last moment before the next, and an idle block whose timer fires; in
POLLED mode a scan step as long as `cmd_ready` is low. -/
theorem witness_ClockEdgesRefineWholeOperations :
    let s : State := { bench Config.reference with tickCnt := 100 }
    let c : Clock.Core := ⟨s, [], 0, 0⟩
    let f : Clock.Core := ⟨{ s with tickCnt := 999 }, [], 0, 0⟩
    let q : Clock.Core := ⟨bench (polled 1000), latchEvents, 2, 0⟩
    c.arch.cfg.wf = true ∧ c.inv ∧ f.arch.cfg.wf = true ∧ f.inv ∧ f.fires = true ∧ q.arch.cfg.wf = true ∧ q.inv ∧
      Clock.idlePorts.rst = false := by
  refine ⟨by decide, ⟨by decide, .inl rfl⟩, by decide, ⟨by decide, .inl rfl⟩, by decide, by decide, ?_, rfl⟩
  exact Nat.le_refl 2
theorem witness_EveryClockEdgeKeepsScanStepsApart : (wiring true false true).wf = true ∧
    (Clock.Core.idle (bench Config.reference)).arch.cfg.wf = true ∧ (Clock.Core.idle (bench Config.reference)).inv :=
  ⟨by decide, by decide, by decide, .inl rfl⟩
theorem witness_TheTickTimerIsFreeRunning : Config.reference.wf = true ∧ Config.reference.scanMode = .timer ∧
    (∀ p ∈ [Clock.idlePorts, ⟨false, true, 0b01, 42⟩], p.rst = false) ∧ Config.reference.tickDiv = 1000 := by decide
/-- O55: a timer that fires, and a POLL that is due with the 100 edges after it. -/
theorem witness_AScanStepTakesOneHundredAndOneEdges :
    let c : Clock.Core := ⟨{ bench Config.reference with tickCnt := 999 }, [], 0, 0⟩
    let q : Clock.Core := ⟨bench (polled 1000), [], 0, 0⟩
    c.inFlight = [] ∧ c.arch.cfg.wf = true ∧ c.fires = true ∧ q.inFlight = [] ∧ q.ready = true ∧
      q.arch.pollDue 1000 = true ∧ (∀ p ∈ List.replicate 100 Clock.idlePorts, p.rst = false) ∧
      (List.replicate 100 Clock.idlePorts).length = 100 := by decide +kernel
theorem witness_ResetEdgeAbandonsTheScanStep : (⟨true, true, 0b11, 5⟩ : Clock.Ports).rst = true := by decide
/-- O58: each clause: POLL due at 1000 and not due at 999, in POLLED mode; COMPOSE, and no command, during a scan step of TIMER mode. -/
theorem witness_CommandsHoldReadyLowAsLongAsTheSpecSays :
    let c : Clock.Core := ⟨bench (polled 1000), [], 0, 0⟩
    let d : Clock.Core := ⟨bench Config.reference, latchEvents, 0, 0⟩
    let p (op : BitVec 2) (arg : Word32) : Clock.Ports := ⟨false, true, op, arg⟩
    (p 0b11 1000).rst = false ∧ (p 0b11 1000).cmdValid = true ∧ c.outs.cmdReady = true ∧
      c.arch.pollDue (p 0b11 1000).cmdArg = true ∧ c.arch.pollDue (p 0b11 999).cmdArg = false ∧
      d.outs.cmdReady = true ∧ (p 0b01 42).cmdOp = 0b01 ∧ Clock.idlePorts.rst = false ∧ Clock.idlePorts.cmdValid = false ∧
      (∀ q ∈ List.replicate 101 Clock.idlePorts, q.rst = false) := by decide +kernel

theorem powerOn_reference_inv : (bench Config.reference).Inv where
  memory := by decide
  benchIdle := by decide
  timer := fun _ => by decide
  pinsLow := by decide
  frames := fun b => .inl (by revert b; decide)
  trace := ⟨[], by decide, by decide, by decide, rfl⟩

/-- O59: the block after a scan step, with a command to come; and the power-on state, whose trace is empty. -/
theorem witness_PinEventsComeFromScanStepsOnly : afterOneScan.bench = none ∧ (nextOf (step afterOneScan)).isSome = true ∧
    afterOneScan.Inv ∧ afterOneScan.trace ≠ [] ∧ (bench Config.reference).Inv ∧ (bench Config.reference).trace = [] :=
  ⟨by decide +kernel, by decide +kernel, afterOneScan_inv, by decide +kernel, powerOn_reference_inv, by decide⟩

end Sys2Proof.Tests
end

section
/-! Totality and refusal of a step (spec/00_scope.md R8, R10, R11; spec/42_scanner.md R170; spec/60_exceptions.md R200): which
configurations and scripts are admitted, that the fetch keeps a script admitted and gives TICK in TIMER mode only, and the
statements that follow. -/

namespace Sys2Proof.Machine

/-! ## Admitted scripts -/

/-- A script is admitted unless it contains TICK in POLLED mode (R170). -/
theorem scriptAdmitted_iff (cfg : Cfg) (script : List Line) :
    scriptAdmitted cfg script = true ↔ (cfg.scanMode = .polled → .tick ∉ script) := by
  unfold scriptAdmitted
  cases cfg.scanMode with
  | timer => simp
  | polled =>
    simp only [List.all_eq_true, bne_iff_ne, true_imp_iff]
    exact ⟨fun h ht => h _ ht rfl, fun h l hl hlt => h (hlt ▸ hl)⟩

theorem scriptAdmitted_of_cons {cfg : Cfg} {l : Line} {rest : List Line} (h : scriptAdmitted cfg (l :: rest) = true) :
    scriptAdmitted cfg rest = true := by
  rw [scriptAdmitted_iff] at h ⊢
  exact fun hp ht => h hp (List.mem_cons_of_mem l ht)

/-- A script with TICK at its head is admitted in TIMER mode only (R170). -/
theorem timer_of_scriptAdmitted_tick {cfg : Cfg} {rest : List Line} (h : scriptAdmitted cfg (.tick :: rest) = true) :
    cfg.scanMode = .timer := by
  rw [scriptAdmitted_iff] at h
  cases hm : cfg.scanMode with
  | timer => rfl
  | polled => exact absurd List.mem_cons_self (h hm)

/-! ## What the fetch gives -/

theorem idleInstr_timer {cfg : Cfg} (h : cfg.scanMode = .timer) : idleInstr cfg = .tick := by rw [idleInstr, h]

theorem idleInstr_polled {cfg : Cfg} (h : cfg.scanMode = .polled) : idleInstr cfg = .nop := by rw [idleInstr, h]

theorem timer_of_idleInstr_tick {cfg : Cfg} (h : idleInstr cfg = .tick) : cfg.scanMode = .timer := by
  cases hm : cfg.scanMode with
  | timer => rfl
  | polled => rw [idleInstr_polled hm] at h; cases h

theorem eq_tick_of_decodeLine {l : Line} (h : decodeLine l = .tick) : l = .tick := by
  cases l with
  | command w => exact absurd h (decodeCommand_ne_tick w)
  | tick => rfl
  | reset => cases h

theorem fetch_scriptAdmitted {s : State} (ha : scriptAdmitted s.cfg s.script = true) :
    scriptAdmitted s.cfg s.fetch.2.script = true := by
  obtain ⟨w, -, hf⟩ | ⟨-, l, rest, hs, hf⟩ | ⟨-, -, hf⟩ := fetch_cases s <;> rw [hf]
  · exact ha
  · rw [hs] at ha
    exact scriptAdmitted_of_cons ha
  · exact ha

/-- TICK is fetched in TIMER mode only: no frame word decodes to it, an admitted script of POLLED mode has no such line, and the
idle operation of POLLED mode is NOP. -/
theorem timer_of_fetch_tick {s : State} (ha : scriptAdmitted s.cfg s.script = true) (ht : s.fetch.1 = .tick) :
    s.cfg.scanMode = .timer := by
  obtain ⟨w, -, hf⟩ | ⟨-, l, rest, hs, hf⟩ | ⟨-, -, hf⟩ := fetch_cases s <;> rw [hf] at ht
  · exact absurd ht (decodeFrame_ne_tick s.cfg w)
  · rw [hs, eq_tick_of_decodeLine ht] at ha
    exact timer_of_scriptAdmitted_tick ha
  · exact timer_of_idleInstr_tick ht

/-! ## Totality -/

/-- Progress and preservation: an admitted step answers a next state, which is admitted again. -/
theorem step_completes {s : State} (hw : s.cfg.wf = true) (ha : scriptAdmitted s.cfg s.script = true) :
    ∃ t, step s = .next t ∧ t.cfg = s.cfg ∧ scriptAdmitted t.cfg t.script = true := by
  obtain ⟨t, he, hcfg, hscript, -⟩ := exec_completes s.fetch.1 s.fetch.2
    fun ht => by rw [fetch_cfg]; exact timer_of_fetch_tick ha ht
  rw [fetch_cfg] at hcfg
  refine ⟨t, by rw [step_eq hw ha, he], hcfg, ?_⟩
  rw [hcfg, hscript]
  exact fetch_scriptAdmitted ha

theorem run_completes {s : State} (k : Nat) (hw : s.cfg.wf = true) (ha : scriptAdmitted s.cfg s.script = true) :
    ∃ t, Host.Core.run Sys2Proof.core k s = .next t := by
  induction k generalizing s with
  | zero => exact ⟨s, rfl⟩
  | succ k ih =>
    obtain ⟨t, hstep, hcfg, hadm⟩ := step_completes hw ha
    rw [run_next Sys2Proof.core k s t hstep]
    exact ih (hcfg ▸ hw) hadm

/-- Settles O48: the step form is `step_completes`, the run form its induction on the number of steps. -/
theorem everyStepCompletes : Obligations.EveryStepCompletes :=
  ⟨fun _ hw ha => step_completes hw ha, fun _ k hw ha => run_completes k hw ha⟩

/-! ## What a step runs -/

/-- Settles O46: an admitted step is the fetched instruction, and each clause is one case of the fetch. -/
theorem aStepRunsTheDecodedLine : Obligations.AStepRunsTheDecodedLine := by
  intro s hw ha
  rw [step_eq hw ha]
  refine ⟨fun l rest hb hs => ?line, fun hb hs hm => ?idleTimer, fun hb hs hm => ?idlePolled, fun w hb => ?frame⟩
  case line => rw [fetch_line hb hs]
  case idleTimer => rw [fetch_idle hb hs, idleInstr_timer hm]
  case idlePolled => rw [fetch_idle hb hs, idleInstr_polled hm]
  case frame => rw [fetch_bench hb]

/-! ## Refusals -/

/-- The checks of R8 (a), bound by bound. -/
theorem glyphsFit_iff (cfg : Cfg) : cfg.glyphsFit = true ↔
    cfg.tensCol.val + 3 ≤ 8 ∧ cfg.onesCol.val + 3 ≤ 8 ∧ cfg.singleCol.val + 3 ≤ 8 ∧ cfg.negMinusCol.val + 2 ≤ 8 ∧
      cfg.negDigitCol.val + 3 ≤ 8 := by
  simp only [Cfg.glyphsFit, Bool.and_eq_true, decide_eq_true_eq, and_assoc]

/-- The checks of R8 (b), bound by bound. -/
theorem glyphsSeparated_iff (cfg : Cfg) : cfg.glyphsSeparated = true ↔
    cfg.tensCol.val + 4 ≤ cfg.onesCol.val ∧ cfg.negMinusCol.val + 3 ≤ cfg.negDigitCol.val := by
  simp only [Cfg.glyphsSeparated, Bool.and_eq_true, decide_eq_true_eq]

/-- R8 (c) bounds the tick period of TIMER mode only, from below (R208). -/
theorem noOverrun_iff (cfg : Cfg) : cfg.noOverrun = true ↔ (cfg.scanMode = .timer → 102 ≤ cfg.tickDiv) := by
  unfold Cfg.noOverrun
  cases cfg.scanMode with
  | timer => simp [Config.scanCycles, Nat.lt_iff_add_one_le]
  | polled => simp

/-- R8 (d) bounds eight scan steps from above, by the mode's own interval. -/
theorem refreshFast_iff (cfg : Cfg) : cfg.refreshFast = true ↔
    (cfg.scanMode = .timer → 8 * cfg.tTick < 20000000) ∧
    (cfg.scanMode = .polled → 8 * (cfg.scanInterval.toNat * cfg.hostUnit) < 20000000) := by
  unfold Cfg.refreshFast
  cases cfg.scanMode <;> simp

/-- The checks of R8 together: the two that bind TIMER mode stand under one premise. -/
theorem cfg_wf_iff (cfg : Cfg) : cfg.wf = true ↔
    cfg.glyphsFit = true ∧ cfg.glyphsSeparated = true ∧
    (cfg.scanMode = .timer → 102 ≤ cfg.tickDiv ∧ 8 * cfg.tTick < 20000000) ∧
    (cfg.scanMode = .polled → 8 * (cfg.scanInterval.toNat * cfg.hostUnit) < 20000000) := by
  simp only [Cfg.wf, Bool.and_eq_true, noOverrun_iff, refreshFast_iff, imp_and, and_assoc]

theorem step_refuses_illFormed {s : State} (hw : s.cfg.wf = false) : step s = .refused .illFormedConfig := by
  rw [step, if_pos hw]

theorem step_refuses_notAdmitted {s : State} (hw : s.cfg.wf = true) (ha : scriptAdmitted s.cfg s.script = false) :
    step s = .refused .tickInPolledMode := by
  rw [step, if_neg (by simp [hw]), if_pos ha]

/-- Settles O47: R8's bounds are `cfg_wf_iff` with its groups written out, and the two refusals are the checks of `step`. -/
theorem illFormedConfigurationsAndScriptsAreRefused : Obligations.IllFormedConfigurationsAndScriptsAreRefused := by
  refine ⟨fun cfg => ?_, fun s => ⟨step_refuses_illFormed, fun hw hm ht => ?_⟩⟩
  · rw [cfg_wf_iff, glyphsFit_iff, glyphsSeparated_iff, Cfg.tickDiv]
  · have hna : ¬ scriptAdmitted s.cfg s.script = true := fun ha => (scriptAdmitted_iff _ _).1 ha hm ht
    exact step_refuses_notAdmitted hw (Bool.eq_false_of_not_eq_true hna)

end Sys2Proof.Machine
end

section
/-! The state of the block (spec/10_state.md): what the reset state holds (R33, R240), which operation writes which element
(R22, R24, R28, R29, R32), and the free-running tick timer of the clock level (R26, R211, R244). -/

namespace Sys2Proof.Machine

/-! ## Reset and power-on -/

/-- After power-on every cell of FB reads its reset contents (R33). -/
theorem powerOn_fb (cfg : Cfg) (sr out : BitVec 16) (b : BufSel) (c : Column) : (State.powerOn cfg sr out).fb b c = 0x00 :=
  read_nil _

/-- RESET clears both buffers (R240). -/
theorem resetBlock_fb (s : State) (b : BufSel) (c : Column) : s.resetBlock.fb b c = 0x00 := read_nil _

/-- Settles O1: `State.reset` is a power-on state, whose elements are those of the reset column. -/
theorem resetStateHoldsTheResetColumn : Obligations.ResetStateHoldsTheResetColumn :=
  ⟨powerOn_fb _ _ _, rfl, rfl, rfl, rfl, rfl, rfl, rfl⟩

/-- Settles O2: RESET answers `resetBlock`, and the laws of its fields are the clauses. -/
theorem resetEventClearsTheBlockAndKeepsTheChain : Obligations.ResetEventClearsTheBlockAndKeepsTheChain := fun s =>
  ⟨s.resetBlock, rfl, resetBlock_fb s, resetBlock_liveSel s, resetBlock_colLatch s, resetBlock_cursor s,
    resetBlock_lastRefresh s, resetBlock_tickCnt s, resetBlock_pins s, resetBlock_trace s, resetBlock_chain s,
    resetBlock_cfg s⟩

/-- In TIMER mode R8 (c) leaves room for at least one count. -/
theorem tickDiv_pos {cfg : Cfg} (hw : cfg.wf = true) (hm : cfg.scanMode = .timer) : 0 < cfg.tickDiv :=
  Nat.zero_lt_of_lt (tickDiv_gt hw hm)

/-- The invariant's base: the timer's count 0 is in range, and the empty trace is no scan step at all. -/
theorem powerOn_inv {cfg : Cfg} (hw : cfg.wf = true) (sr out : BitVec 16) : (State.powerOn cfg sr out).Inv where
  memory := wf_nil
  benchIdle := rfl
  timer hm := tickDiv_pos hw hm
  pinsLow := ⟨rfl, rfl⟩
  frames b := .inl (powerOn_fb cfg sr out b)
  trace := ⟨[], rfl, rfl, rfl, rfl⟩

/-- Settles O50: `State.reset` is the power-on state of the reference configuration, which is well formed. -/
theorem invariantHoldsAtReset : Obligations.InvariantHoldsAtReset :=
  have href : Config.reference.wf = true := by decide
  ⟨powerOn_inv href _ _, fun _ sr out hw => powerOn_inv hw sr out⟩

/-! ## What COMPOSE leaves unchanged (R129) -/

@[simp] theorem composeInto_cfg (s : State) (n : Int) : (s.composeInto n).cfg = s.cfg := rfl
@[simp] theorem composeInto_liveSel (s : State) (n : Int) : (s.composeInto n).liveSel = s.liveSel := rfl
@[simp] theorem composeInto_cursor (s : State) (n : Int) : (s.composeInto n).cursor = s.cursor := rfl
@[simp] theorem composeInto_pins (s : State) (n : Int) : (s.composeInto n).pins = s.pins := rfl
@[simp] theorem composeInto_trace (s : State) (n : Int) : (s.composeInto n).trace = s.trace := rfl
@[simp] theorem composeInto_chain (s : State) (n : Int) : (s.composeInto n).chain = s.chain := rfl

/-! ## Which operation writes which element -/

/-- The pin events `es` lead from `s` to `t`: they extend the trace, and the pins and the chain are their replay (R28). -/
def State.Drives (s : State) (es : List PinEvent) (t : State) : Prop :=
  t.trace = s.trace ++ es ∧ replay s.pins s.chain es = (t.pins, t.chain)

theorem drives_nil {s t : State} (htr : t.trace = s.trace) (hp : t.pins = s.pins) (hch : t.chain = s.chain) :
    s.Drives [] t := ⟨by rw [htr, List.append_nil], by rw [hp, hch, replay]⟩

theorem drives_drive (s : State) (es : List PinEvent) : s.Drives es (s.drive es) := ⟨by simp, by simp⟩

/-- A scan step drives its 100 pin events (R158, R165). -/
theorem drives_scan (s : State) : s.Drives (scanEvents s.cfg (s.fb s.liveSel s.cursor) s.cursor) s.scan :=
  ⟨scan_trace s, by rw [replay_scan, scan_pins, scan_chain]⟩

/-- What every operation but RESET, COMPOSE and PUBLISH is held to: it writes no configuration, no frame buffer and no `live_sel`,
it moves the wires by pin events only, and it moves the cursor only by a scan step. -/
structure WiresOnly (i : Instr) (s t : State) : Prop where
  cfg : t.cfg = s.cfg
  mem : t.mem = s.mem
  liveSel : t.liveSel = s.liveSel
  wires : ∃ es, s.Drives es t
  cursor : t.cursor = s.cursor ∨ (t.cursor = s.cursor + 1 ∧ (i = .scan ∨ i = .tick ∨ ∃ now, i = .poll now))

theorem wiresOnly_self (i : Instr) (s : State) : WiresOnly i s s :=
  ⟨rfl, rfl, rfl, ⟨[], drives_nil rfl rfl rfl⟩, .inl rfl⟩

theorem wiresOnly_drive (i : Instr) (s : State) (es : List PinEvent) : WiresOnly i s (s.drive es) :=
  ⟨drive_cfg s es, drive_mem s es, drive_liveSel s es, ⟨es, drives_drive s es⟩, .inl (drive_cursor s es)⟩

theorem wiresOnly_scan {i : Instr} (hi : i = .scan ∨ i = .tick ∨ ∃ now, i = .poll now) (s : State) : WiresOnly i s s.scan :=
  ⟨scan_cfg s, scan_mem s, scan_liveSel s, ⟨_, drives_scan s⟩, .inr ⟨scan_cursor s, hi⟩⟩

/-- `WiresOnly` says nothing of `last_refresh`, which a POLL that scans sets (R171). -/
theorem WiresOnly.withLastRefresh {i : Instr} {s t : State} (h : WiresOnly i s t) (now : Word32) :
    WiresOnly i s { t with lastRefresh := now } := ⟨h.cfg, h.mem, h.liveSel, h.wires, h.cursor⟩

/-- `WiresOnly` says nothing of `returned`, where FontRead leaves its byte (log 8). -/
theorem WiresOnly.withReturned {i : Instr} {s t : State} (h : WiresOnly i s t) (v : Option Byte) :
    WiresOnly i s { t with returned := v } := ⟨h.cfg, h.mem, h.liveSel, h.wires, h.cursor⟩

/-- Who writes what: RESET, COMPOSE and PUBLISH are the operations that write a frame buffer or `live_sel`; all others are
`WiresOnly`. -/
theorem exec_writes {i : Instr} {s t : State} (he : exec i s = .next t) :
    WiresOnly i s t ∨ (i = .reset ∧ t = s.resetBlock) ∨ (∃ n, i = .compose n ∧ t = s.composeInto n) ∨
      (i = .publish ∧ t = s.swap) := by
  obtain ⟨-, rfl⟩ | hcompose | hpublish | ⟨now, hi, rfl | rfl⟩ | ⟨hi, rfl⟩ | hreset | ⟨es, rfl, -⟩ | ⟨g, -, rfl⟩ :=
    exec_cases he
  · exact .inl (wiresOnly_self _ _)
  · exact .inr (.inr (.inl hcompose))
  · exact .inr (.inr (.inr hpublish))
  · exact .inl (wiresOnly_self _ _)
  · exact .inl ((wiresOnly_scan (.inr (.inr ⟨now, hi⟩)) s).withLastRefresh now)
  · exact .inl (wiresOnly_scan (hi.imp_right .inl) s)
  · exact .inr (.inl hreset)
  · exact .inl (wiresOnly_drive i s es)
  · exact .inl ((wiresOnly_self i s).withReturned _)

/-- Settles O40: R29, in each case of `exec_writes`. -/
theorem theConfigurationIsNeverWritten : Obligations.TheConfigurationIsNeverWritten := by
  intro i s t he
  obtain hw | ⟨-, rfl⟩ | ⟨n, -, rfl⟩ | ⟨-, rfl⟩ := exec_writes he
  · exact hw.cfg
  · exact resetBlock_cfg s
  · exact composeInto_cfg s n
  · exact swap_cfg s

/-- `1 - live_sel` is the other buffer (R22). -/
theorem swap_liveSel_ne (s : State) : s.swap.liveSel ≠ s.liveSel := staging_ne_live s

/-- Settles O36: of the cases of `exec_writes` only RESET and PUBLISH write `live_sel`, and PUBLISH takes the other index. -/
theorem onlyPublishAndResetWriteLiveSel : Obligations.OnlyPublishAndResetWriteLiveSel := by
  intro i s t he
  refine ⟨fun hpublish hreset => ?_, ?_⟩
  · obtain hw | ⟨hi, -⟩ | ⟨n, -, rfl⟩ | ⟨hi, -⟩ := exec_writes he
    · exact hw.liveSel
    · exact absurd hi hreset
    · exact composeInto_liveSel s n
    · exact absurd hi hpublish
  · rintro rfl
    cases he
    exact swap_liveSel_ne s

/-- The first clause of O37, from which the second follows: the cursor stays, is advanced by a scan step, or is reset. -/
theorem exec_cursor {i : Instr} {s t : State} (he : exec i s = .next t) :
    t.cursor = s.cursor ∨ (t.cursor = s.cursor + 1 ∧ (i = .scan ∨ i = .tick ∨ ∃ now, i = .poll now)) ∨
      (t.cursor = 0 ∧ i = .reset) := by
  obtain hw | ⟨hi, rfl⟩ | ⟨n, -, rfl⟩ | ⟨-, rfl⟩ := exec_writes he
  · exact hw.cursor.imp_right .inl
  · exact .inr (.inr ⟨resetBlock_cursor s, hi⟩)
  · exact .inl (composeInto_cursor s n)
  · exact .inl (swap_cursor s)

/-- Settles O37: an operation that moves the cursor is one of those `exec_cursor` names, so none of NOP, PUBLISH and COMPOSE. -/
theorem theCursorOnlyAdvancesByOneOrIsReset : Obligations.TheCursorOnlyAdvancesByOneOrIsReset := by
  intro i s t he
  refine ⟨exec_cursor he, fun hne => ?_⟩
  obtain heq | ⟨-, rfl | rfl | ⟨now, rfl⟩⟩ | ⟨-, rfl⟩ := exec_cursor he
  · exact absurd heq hne
  all_goals simp

/-- Settles O38: COMPOSE leaves the live buffer by `composeInto_live`; no other operation but RESET writes the memory. -/
theorem onlyComposeAndResetWriteFrameBuffers : Obligations.OnlyComposeAndResetWriteFrameBuffers := by
  intro i s t he hreset
  obtain hw | ⟨hi, -⟩ | ⟨n, hi, rfl⟩ | ⟨-, rfl⟩ := exec_writes he
  · exact ⟨fun _ => by rw [State.fb, State.fb, hw.mem], fun _ => hw.mem⟩
  · exact absurd hi hreset
  · exact ⟨composeInto_live s n, fun hcompose => absurd hi (hcompose n)⟩
  · exact ⟨fun _ => rfl, fun _ => rfl⟩

/-- Settles O39: COMPOSE and PUBLISH leave trace and wires, and every other operation but RESET drives pin events. -/
theorem pinsAndChainAreFunctionsOfTheTrace : Obligations.PinsAndChainAreFunctionsOfTheTrace := by
  intro i s t he hreset
  obtain hw | ⟨hi, -⟩ | ⟨n, -, rfl⟩ | ⟨-, rfl⟩ := exec_writes he
  · exact hw.wires
  · exact absurd hi hreset
  · exact ⟨[], drives_nil (composeInto_trace s n) (composeInto_pins s n) (composeInto_chain s n)⟩
  · exact ⟨[], drives_nil (swap_trace s) (swap_pins s) (swap_chain s)⟩

end Sys2Proof.Machine

/-! ## The tick timer -/

namespace Sys2Proof.Machine.Clock

/-- Counting up to a limit and wrapping to 0 is counting modulo the limit. -/
theorem wrap_eq_mod {d k : Nat} (hk : k < d) : (if d ≤ k + 1 then 0 else k + 1) = (k + 1) % d := by
  split
  · next hd => rw [show k + 1 = d by omega, Nat.mod_self]
  · next hd => rw [Nat.mod_eq_of_lt (by omega)]

/-- A counter that has counted `n` modulo `d` is at its last value exactly when `d` divides `n + 1`. -/
theorem last_count_iff {d : Nat} (hd : 0 < d) (n : Nat) : d ≤ n % d + 1 ↔ d ∣ n + 1 := by
  have hlt : n % d < d := Nat.mod_lt n hd
  have hsplit : n + 1 = d * (n / d) + (n % d + 1) := by rw [← Nat.add_assoc, Nat.div_add_mod]
  rw [hsplit, Nat.dvd_add_right (Nat.dvd_mul_right d _)]
  exact ⟨fun h => by rw [show n % d + 1 = d by omega], Nat.le_of_dvd (Nat.succ_pos _)⟩

@[simp] theorem edges_cfg (ps : List Ports) (c : Core) : (edges ps c).arch.cfg = c.arch.cfg := by
  induction ps generalizing c with
  | nil => rfl
  | cons p ps ih => exact (ih (edge p c)).trans (edge_cfg p c)

/-- Edges without reset count modulo `TICK_DIV`, from any count in range and whatever the host presents (R26, R211). -/
theorem edges_tickCnt (ps : List Ports) (c : Core) (hm : c.arch.cfg.scanMode = .timer)
    (hlt : c.arch.tickCnt < c.arch.cfg.tickDiv) (hr : ∀ p ∈ ps, p.rst = false) :
    (edges ps c).arch.tickCnt = (c.arch.tickCnt + ps.length) % c.arch.cfg.tickDiv := by
  induction ps generalizing c with
  | nil => exact (Nat.mod_eq_of_lt hlt).symm
  | cons p ps ih =>
    have hstep : (edge p c).arch.tickCnt = (c.arch.tickCnt + 1) % c.arch.cfg.tickDiv := by
      rw [edge_tickCnt p c (hr p List.mem_cons_self) hm, wrap_eq_mod hlt]
    have hrest := ih (edge p c) (by rw [edge_cfg, hm])
      (by rw [hstep, edge_cfg]; exact Nat.mod_lt _ (Nat.zero_lt_of_lt hlt)) fun q hq => hr q (List.mem_cons_of_mem p hq)
    rw [hstep, edge_cfg, Nat.mod_add_mod] at hrest
    rw [List.length_cons, Nat.add_comm ps.length 1, ← Nat.add_assoc]
    exact hrest

/-- Settles O54: `edges_tickCnt` from count 0, and `last_count_iff` for the edge on which the timer fires. -/
theorem theTickTimerIsFreeRunning : Obligations.TheTickTimerIsFreeRunning := by
  intro cfg sr out ps hw hm hr c
  have hpos : 0 < cfg.tickDiv := tickDiv_pos hw hm
  have hcfg : c.arch.cfg = cfg := edges_cfg ps _
  have hcnt : c.arch.tickCnt = ps.length % cfg.tickDiv := by
    have h := edges_tickCnt ps (Core.idle (State.powerOn cfg sr out)) hm hpos hr
    rwa [show (Core.idle (State.powerOn cfg sr out)).arch.tickCnt = 0 from rfl, Nat.zero_add] at h
  refine ⟨hcnt, ?_⟩
  rw [fires_timer c (by rw [hcfg, hm]), decide_eq_true_iff, hcfg, hcnt, last_count_iff hpos]

end Sys2Proof.Machine.Clock
end

section
/-! The frame-buffer memory (spec/20_memory.md): canonical memories are determined by their reads (R59), the font's addresses
(R51), what a scan step reads and what a transmission leaves (R59, R61 to R65), and the invariant of the operation level, which
every step keeps (R62, R163, R164, R174, R227). -/

namespace Sys2Proof.Machine

/-! ## Canonical memories -/

/-- The cells listed in a canonical memory are those that read other than an unlisted cell does. -/
theorem mem_iff_read {m : Memory} (h : Memory.wf m = true) (a : Nat) (v : Byte) :
    (a, v) ∈ m ↔ Memory.read m a = v ∧ v ≠ 0x00 := by
  rw [wf_iff] at h
  obtain ⟨hrising, hcells⟩ := h
  induction m with
  | nil => exact ⟨(nomatch ·), fun ⟨hread, hv⟩ => absurd hread.symm hv⟩
  | cons c m ih =>
    obtain ⟨k, w⟩ := c
    obtain ⟨hbelow, hrest⟩ := List.pairwise_cons.1 hrising
    have ih := ih hrest fun c hc => hcells c (List.mem_cons_of_mem _ hc)
    have hw : w ≠ 0x00 := (hcells (k, w) List.mem_cons_self).2
    rw [List.mem_cons, ih, Prod.mk.injEq, Memory.read]
    by_cases hk : k = a
    · subst hk
      rw [read_of_lt m k hbelow, if_pos rfl]
      grind
    · simp [hk, Ne.symm hk]

/-- Canonical memories that read alike at every cell are equal: both list the same cells in rising order. -/
theorem memory_ext {m m' : Memory} (h : Memory.wf m = true) (h' : Memory.wf m' = true)
    (hread : ∀ a, Memory.read m a = Memory.read m' a) : m = m' := by
  have : Std.Irrefl fun c d : Host.Cell => c.1 < d.1 := ⟨fun c => Nat.lt_irrefl c.1⟩
  have : Std.Antisymm fun c d : Host.Cell => c.1 < d.1 := ⟨fun _ _ hcd hdc => absurd hcd (Nat.lt_asymm hdc)⟩
  refine ((wf_iff m).1 h).1.eq_of_mem_iff ((wf_iff m').1 h').1 fun c => ?_
  rw [mem_iff_read h, mem_iff_read h', hread]

/-- Writing the same whole buffer again changes nothing (R59). -/
theorem writeBuf_twice {m : Memory} (b : BufSel) (buf : FrameBuf) (h : Memory.wf m = true) :
    Memory.writeBuf (Memory.writeBuf m b buf) b buf = Memory.writeBuf m b buf := by
  refine memory_ext (writeBuf_wf (writeBuf_wf h)) (writeBuf_wf h) fun a => ?_
  by_cases ha : ∃ c, a = fbKey b c
  · obtain ⟨c, rfl⟩ := ha
    simp only [writeBuf_read, if_true]
  · exact writeBuf_read_other _ b buf a (not_exists.1 ha)

theorem composeInto_twice (n : Int) {s : State} (h : Memory.wf s.mem = true) :
    (s.composeInto n).composeInto n = s.composeInto n :=
  congrArg (fun m => { s with mem := m }) (writeBuf_twice s.stagingSel (compose s.cfg n) h)

/-- Settles O31: `memory_ext`, and what it gives for COMPOSE. -/
theorem composeTwiceIsComposeOnce : Obligations.ComposeTwiceIsComposeOnce :=
  ⟨fun _ _ => memory_ext, fun n s h => ⟨s.composeInto n, rfl, congrArg Host.Outcome.next (composeInto_twice n h)⟩⟩

/-! ## The font's addresses -/

theorem glyphCol?_digit (d : Fin 10) (k : Fin 3) : glyphCol? d.val k.val = some (.digit d k) := by
  rw [glyphCol?, dif_pos d.isLt, dif_pos k.isLt]

theorem glyphCol?_minus (j : Fin 2) : glyphCol? 10 j.val = some (.minus j) := by
  rw [glyphCol?, dif_neg (Nat.lt_irrefl 10), if_pos rfl, dif_pos j.isLt]

/-- No glyph index above 10, no glyph column above 2, and no third column of the minus glyph (R51, R101). -/
theorem glyphCol?_none {g k : Nat} (h : 11 ≤ g ∨ 3 ≤ k ∨ (g = 10 ∧ k = 2)) : glyphCol? g k = none := by
  unfold glyphCol?
  split
  · next hdigit => rw [dif_neg (by omega)]
  · split
    · next hminus => rw [dif_neg (by omega)]
    · rfl

/-- Settles O16, clause by clause. -/
theorem fontAddressesAreTheElevenGlyphs : Obligations.FontAddressesAreTheElevenGlyphs :=
  ⟨glyphCol?_digit, glyphCol?_minus, fun _ _ => glyphCol?_none⟩

/-! ## What a transmission leaves and what a scan step reads -/

/-- A transmission from idle pins leaves them idle and the word in both halves of the chain (R152, R163). -/
theorem transmit_wires {s : State} (w : FrameWord) (hc : s.pins.clock = false) (hl : s.pins.latch = false) :
    (s.transmit w).pins = ⟨w.getLsbD 0, false, false⟩ ∧ (s.transmit w).chain = ⟨w, w⟩ := by
  rw [transmit_eq_drive, drive_pins, drive_chain, replay_transmit _ _ _ hc hl]
  exact ⟨rfl, rfl⟩

/-- Settles O32: each transmission leaves `⟨w, w⟩`, the second one too because the first leaves the pins idle. -/
theorem transmittingTwiceLeavesTheSameChain : Obligations.TransmittingTwiceLeavesTheSameChain := by
  intro w s hc hl
  obtain ⟨hpins, hchain⟩ := transmit_wires w hc hl
  obtain ⟨-, hagain⟩ := transmit_wires (s := s.transmit w) w (by rw [hpins]) (by rw [hpins])
  rw [hagain, hchain]

/-- A scan step reads one cell, the captured one: with a memory that holds the same byte there it does the same (R32, R62). -/
theorem scan_withMem (s : State) (m : Memory)
    (h : Memory.read m (fbKey s.liveSel s.cursor) = Memory.read s.mem (fbKey s.liveSel s.cursor)) :
    ({ s with mem := m } : State).scan = { s.scan with mem := m } := by
  have hcaptured : ({ s with mem := m } : State).fb s.liveSel s.cursor = s.fb s.liveSel s.cursor := h
  simp only [scan_eq, hcaptured]

/-- Settles O33: the captured cell is one of the live buffer. -/
theorem scanNeverReadsTheStagingBuffer : Obligations.ScanNeverReadsTheStagingBuffer := fun s m h =>
  ⟨s.scan, rfl, congrArg Host.Outcome.next (scan_withMem s m (h s.cursor))⟩

/-- Settles O35: PUBLISH makes the staging buffer the live one, which SCAN captures from. -/
theorem theScanAfterAPublishReadsTheNewBuffer : Obligations.TheScanAfterAPublishReadsTheNewBuffer := fun s =>
  ⟨s.swap, s.swap.scan, rfl, rfl, scan_colLatch s.swap, scan_cursor s.swap⟩

/-! ## Every operation of the agents keeps the invariant -/

theorem wholeFrame_congr {s t : State} {b : BufSel} (hcfg : t.cfg = s.cfg) (hfb : ∀ c, t.fb b c = s.fb b c) :
    t.wholeFrame b ↔ s.wholeFrame b := by
  simp only [State.wholeFrame, hcfg, hfb]

/-- COMPOSE leaves a whole frame in the staging buffer, and in the other buffer the one it held (R62, R129). -/
theorem composeInto_wholeFrame {s : State} (n : Int) {b : BufSel} (h : s.wholeFrame b) : (s.composeInto n).wholeFrame b := by
  by_cases hb : s.stagingSel = b
  · subst hb
    exact .inr ⟨n, composeInto_staging s n⟩
  · exact (wholeFrame_congr (composeInto_cfg s n) fun c => (writeBuf_fb s s.stagingSel b c _).trans (if_neg hb)).2 h

theorem State.Inv.composeInto {s : State} (h : s.Inv) (n : Int) : (s.composeInto n).Inv where
  memory := writeBuf_wf h.memory
  benchIdle := h.benchIdle
  timer := h.timer
  pinsLow := h.pinsLow
  frames b := composeInto_wholeFrame n (h.frames b)
  trace := h.trace

/-- The invariant says nothing of `live_sel`: it holds both buffers to whole frames (R62, R132). -/
theorem State.Inv.swap {s : State} (h : s.Inv) : s.swap.Inv :=
  ⟨h.memory, h.benchIdle, h.timer, h.pinsLow, h.frames, h.trace⟩

theorem State.Inv.withScript {s : State} (h : s.Inv) (script : List Line) : ({ s with script := script } : State).Inv :=
  ⟨h.memory, h.benchIdle, h.timer, h.pinsLow, h.frames, h.trace⟩

theorem State.Inv.withLastRefresh {s : State} (h : s.Inv) (now : Word32) : ({ s with lastRefresh := now } : State).Inv :=
  ⟨h.memory, h.benchIdle, h.timer, h.pinsLow, h.frames, h.trace⟩

/-- RESET leads back to the power-on state of the same configuration, but for the script (R240, log 14). -/
theorem State.Inv.resetBlock {s : State} (h : s.Inv) (hw : s.cfg.wf = true) : s.resetBlock.Inv := by
  rw [State.resetBlock, h.benchIdle]
  exact (powerOn_inv hw s.chain.sr s.chain.out).withScript s.script

/-- After a scan step the wires show the data word of the byte it captured (R163, R225). -/
theorem scan_showsLast (s : State) (vs : List Byte) : s.scan.showsLast (vs ++ [s.fb s.liveSel s.cursor]) := by
  simp [State.showsLast]

/-- A scan step of the cursor's column extends a trace of whole scan steps by one more (R164, R174). -/
theorem scan_scanTrace {s : State} {vs : List Byte} (htrace : s.trace = scanTrace s.cfg 0 vs)
    (hcursor : s.cursor = BitVec.ofNat 3 vs.length) :
    s.scan.trace = scanTrace s.cfg 0 (vs ++ [s.fb s.liveSel s.cursor]) := by
  rw [scan_trace, htrace, scanTrace_append, zero_add, ← hcursor, scanTrace, scanTrace, List.append_nil]

theorem State.Inv.scan {s : State} (h : s.Inv) : s.scan.Inv where
  memory := by rw [scan_mem]; exact h.memory
  benchIdle := by rw [scan_bench]; exact h.benchIdle
  timer := by rw [scan_cfg, scan_tickCnt]; exact h.timer
  pinsLow := by rw [scan_pins]; exact ⟨rfl, rfl⟩
  frames b := (wholeFrame_congr (scan_cfg s) (scan_fb s b)).2 (h.frames b)
  trace := by
    obtain ⟨vs, htrace, hcursor, -, -⟩ := h.trace
    refine ⟨vs ++ [s.fb s.liveSel s.cursor], ?_, ?_, ?_, scan_showsLast s vs⟩
    · rw [scan_cfg, scan_scanTrace htrace hcursor]
    · rw [scan_cursor, hcursor, List.length_append, List.length_singleton, BitVec.ofNat_add]
      rfl
    · rw [scan_colLatch, List.getLast?_concat, Option.getD_some]

theorem State.Inv.poll {s : State} (h : s.Inv) (now : Word32) : (s.poll now).Inv := by
  obtain hidle | hdue := poll_cases s now
  · rwa [hidle]
  · rw [hdue]
    exact h.scan.withLastRefresh now

/-- A TICK that completes is a scan step (R170). -/
theorem eq_scan_of_exec_tick {s t : State} (he : exec .tick s = .next t) : t = s.scan := by
  simp only [exec, execTick] at he
  split at he <;> cases he
  rfl

/-- The fetch takes at most the script's first line: nothing is on the bench. -/
theorem State.Inv.fetch {s : State} (h : s.Inv) : s.fetch.2.Inv := by
  obtain ⟨w, hw, -⟩ | ⟨-, l, rest, -, hf⟩ | ⟨-, -, hf⟩ := fetch_cases s
  · rw [h.benchIdle] at hw
    cases hw
  · rw [hf]
    exact h.withScript rest
  · rwa [hf]

/-- Settles O51: the fetch keeps the invariant and gives an operation of the agents, and each of these keeps it. -/
theorem everyStepKeepsTheInvariant : Obligations.EveryStepKeepsTheInvariant := by
  intro s t hinv hstep
  obtain ⟨hw, he⟩ := step_next hstep
  obtain ⟨-, hagents⟩ := fetch_agents hinv.benchIdle
  have hf : s.fetch.2.Inv := hinv.fetch
  obtain hnop | ⟨n, hcompose⟩ | hpublish | ⟨now, hpoll⟩ | htick | hreset := hagents
  · rw [hnop] at he; cases he; exact hf
  · rw [hcompose] at he; cases he; exact hf.composeInto n
  · rw [hpublish] at he; cases he; exact hf.swap
  · rw [hpoll] at he; cases he; exact hf.poll now
  · rw [htick] at he; rw [eq_scan_of_exec_tick he]; exact hf.scan
  · rw [hreset] at he; cases he; exact hf.resetBlock (by rw [fetch_cfg, hw])

end Sys2Proof.Machine
end

section
/-! The encodings (spec/30_encoding.md): command words by opcode (R78 to R82), frame words by their row and column byte (R73 to
R77), their agreement with the encoder, what a frame word does on the bench (log 7), and the lines of a script (R84, R85). -/

namespace Sys2Proof

open Laws.RoundTrip (decodeCommand_word)

/-! ## Command words -/

theorem opcode_cases : ∀ op : BitVec 2, op = 0b00 ∨ op = 0b01 ∨ op = 0b10 ∨ op = 0b11 := by decide

theorem decodeCommand_nop (arg : Word32) : decodeCommand (cmdWord 0b00 arg) = .nop := by
  rw [decodeCommand_word, if_pos rfl]

theorem decodeCommand_compose (arg : Word32) : decodeCommand (cmdWord 0b01 arg) = .compose (sext32 arg) := by
  rw [decodeCommand_word, if_neg (by decide), if_pos rfl]

theorem decodeCommand_publish (arg : Word32) : decodeCommand (cmdWord 0b10 arg) = .publish := by
  rw [decodeCommand_word, if_neg (by decide), if_neg (by decide), if_pos rfl]

theorem decodeCommand_poll (arg : Word32) : decodeCommand (cmdWord 0b11 arg) = .poll arg := by
  rw [decodeCommand_word, if_neg (by decide), if_neg (by decide), if_neg (by decide)]

/-- Two's complement written out (R80). -/
theorem sext32_eq (arg : Word32) :
    sext32 arg = if arg.toNat < 2147483648 then (arg.toNat : Int) else (arg.toNat : Int) - 4294967296 := by
  rw [sext32, BitVec.toInt_eq_toNat_cond]
  split <;> split <;> omega

/-- Settles O41: one lemma per opcode, and COMPOSE's operand by `sext32_eq`. -/
theorem commandWordsDecodeByTheirOpcode : Obligations.CommandWordsDecodeByTheirOpcode := fun arg =>
  ⟨decodeCommand_nop arg, by rw [← sext32_eq]; exact decodeCommand_compose arg, decodeCommand_publish arg,
    decodeCommand_poll arg⟩

/-- A command word is written back from what it decodes to, where NOP and PUBLISH carry the zero the encoder gives them (R81). -/
theorem encode_decodeCommand (cfg : Cfg) {op : BitVec 2} {arg : Word32} (h : op = 0b01 ∨ op = 0b11 ∨ arg = 0) :
    encode cfg (decodeCommand (cmdWord op arg)) = some (.line (.command (cmdWord op arg))) := by
  obtain rfl | rfl | rfl | rfl := opcode_cases op
  · obtain rfl : arg = 0 := by simpa using h
    rw [decodeCommand_nop, encode]
  · rw [decodeCommand_compose, encode, sext32, BitVec.ofInt_toInt]
  · obtain rfl : arg = 0 := by simpa using h
    rw [decodeCommand_publish, encode]
  · rw [decodeCommand_poll, encode]

/-! ## Frame words -/

/-- The data instruction of the configuration's byte order (R73). -/
def Cfg.frameData (cfg : Cfg) (rb cb : Byte) : Instr :=
  if cfg.rowFirst then .frameDataRowFirst rb cb else .frameDataColFirst rb cb

/-- A frame word is put together again from its row byte and its column byte (R73). -/
theorem frame_rowByte_colByte (cfg : Cfg) (w : FrameWord) : cfg.frame (cfg.rowByte w) (cfg.colByte w) = w := by
  unfold Cfg.frame Cfg.rowByte Cfg.colByte
  cases cfg.rowFirst <;> exact append_bytes w

theorem decodeFrame_blank (cfg : Cfg) : decodeFrame cfg cfg.blank = .frameBlank := if_pos rfl

/-- Every frame word but BLANK is a data word (R77). -/
theorem decodeFrame_of_ne_blank {cfg : Cfg} {w : FrameWord} (h : w ≠ cfg.blank) :
    decodeFrame cfg w = cfg.frameData (cfg.rowByte w) (cfg.colByte w) := by
  unfold decodeFrame Cfg.frameData Cfg.rowByte Cfg.colByte
  rw [if_neg h]
  cases cfg.rowFirst <;> rfl

theorem encode_frameData (cfg : Cfg) (rb cb : Byte) :
    encode cfg (cfg.frameData rb cb) = some (.frame (cfg.frame rb cb)) := by
  unfold Cfg.frameData Cfg.frame
  cases cfg.rowFirst <;> rfl

theorem encode_decodeFrame (cfg : Cfg) (w : FrameWord) : encode cfg (decodeFrame cfg w) = some (.frame w) := by
  by_cases h : w = cfg.blank
  · rw [h, decodeFrame_blank, encode]
  · rw [decodeFrame_of_ne_blank h, encode_frameData, frame_rowByte_colByte]

/-- Settles O43: a data word is not BLANK, so it decodes to its own row and column byte. -/
theorem dataWordsDecodeToTheirTwoBytes : Obligations.DataWordsDecodeToTheirTwoBytes := by
  intro cfg v c
  refine ⟨?_, decodeFrame_blank cfg⟩
  rw [decodeFrame_of_ne_blank (dataWord_ne_blank cfg v c), Cfg.dataWord, rowByte_frame, colByte_frame]
  rfl

/-! ## Decoder and encoder -/

/-- Every well-formed instruction that has an encoding is read back from it. -/
theorem decode_encode : ∀ i : Instr, Laws.RoundTrip.Statement i
  | .nop => Laws.RoundTrip.nop
  | .compose n => Laws.RoundTrip.compose n
  | .publish => Laws.RoundTrip.publish
  | .poll now => Laws.RoundTrip.poll now
  | .tick => Laws.RoundTrip.tick
  | .reset => Laws.RoundTrip.reset
  | .scan => Laws.RoundTrip.scan
  | .tx w => Laws.RoundTrip.tx w
  | .latchPulse => Laws.RoundTrip.latchPulse
  | .fontRead g => Laws.RoundTrip.fontRead g
  | .frameDataRowFirst rb cb => Laws.RoundTrip.frameDataRowFirst rb cb
  | .frameDataColFirst rb cb => Laws.RoundTrip.frameDataColFirst rb cb
  | .frameBlank => Laws.RoundTrip.frameBlank

/-- Settles O42: `decode_encode` in one direction, `encode_decodeFrame` and `encode_decodeCommand` in the other. -/
theorem decodeAndEncodeAgree : Obligations.DecodeAndEncodeAgree := fun cfg =>
  ⟨fun i => decode_encode i cfg, encode_decodeFrame cfg, fun w h => by
    simpa only [cmdWord_fields] using encode_decodeCommand cfg h⟩

end Sys2Proof

namespace Sys2Proof.Machine

/-! ## Command words complete -/

theorem decodeCommand_of_cmdOp_poll {w : CmdWord} (h : cmdOp w = 0b11) : decodeCommand w = .poll (cmdArg w) := by
  rw [← cmdWord_fields w, h, decodeCommand_poll, cmdArg_cmdWord]

/-- In TIMER mode POLL is never due (R172). -/
theorem poll_timer {s : State} (hm : s.cfg.scanMode = .timer) (now : Word32) : s.poll now = s := by
  rw [State.poll, State.pollDue, hm]
  exact if_neg Bool.false_ne_true

/-- Settles O9: no command word decodes to TICK, the one instruction that may be refused, and a POLL in TIMER mode is not due. -/
theorem everyCommandWordCompletes : Obligations.EveryCommandWordCompletes := by
  intro w s
  obtain ⟨t, he, -⟩ := exec_completes (decodeCommand w) s fun ht => absurd ht (decodeCommand_ne_tick w)
  refine ⟨t, he, fun hop hm => ?_⟩
  have hpoll : exec (.poll (cmdArg w)) s = .next s := congrArg Host.Outcome.next (poll_timer hm (cmdArg w))
  rw [decodeCommand_of_cmdOp_poll hop, hpoll] at he
  exact (Host.Outcome.next.inj he).symm

/-- Settles O44: seven closed words, decoded by evaluation. -/
theorem sampleWordsDecodeAsTheSpecWritesThem : Obligations.SampleWordsDecodeAsTheSpecWritesThem := by
  unfold Obligations.SampleWordsDecodeAsTheSpecWritesThem
  decide

/-! ## Frame words on the bench -/

/-- A transmission ends with the last bit on DATA and CLOCK and LATCH low, from any pins and any chain (R161, R162). -/
theorem replay_transmit_pins (p : Pins) (ch : Chain) (w : FrameWord) :
    (replay p ch (txEvents w ++ latchEvents)).1 = ⟨w.getLsbD 0, false, false⟩ := by
  obtain ⟨sr, htx⟩ := replay_tx_any p ch w
  rw [replay_append, htx, replay_latch]

/-- All that an instruction which transmits and latches a word does: the pins, the trace and the chain, and the word in both
halves of the chain when CLOCK and LATCH were low (R152, R222). -/
theorem exec_of_transmit {i : Instr} {s : State} {w : FrameWord} (he : exec i s = .next (s.transmit w)) :
    ∃ ch : Chain,
      exec i s = .next { s with
        pins := ⟨w.getLsbD 0, false, false⟩, chain := ch, trace := s.trace ++ (txEvents w ++ latchEvents) } ∧
      (s.pins.clock = false → s.pins.latch = false → ch = ⟨w, w⟩) := by
  refine ⟨(replay s.pins s.chain (txEvents w ++ latchEvents)).2, ?_, fun hc hl => ?_⟩
  · rw [he, transmit_eq_drive, drive_eq, replay_transmit_pins]
  · rw [replay_transmit _ _ _ hc hl]

/-- Settles O17: each of the three frame instructions is the transmission of its word. -/
theorem frameWordsAreTransmittedAndLatched : Obligations.FrameWordsAreTransmittedAndLatched := fun _ _ _ =>
  ⟨exec_of_transmit rfl, exec_of_transmit rfl, exec_of_transmit rfl⟩

/-! ## Script lines -/

theorem assemble_singleton (op : ScriptOp) : assemble [op] = op.lines := List.flatMap_singleton ..

theorem decodeLine_composeLine {n : Int} (h : fitsPort n = true) : decodeLine (composeLine n) = .compose n := by
  rw [composeLine, decodeLine, decodeCommand_compose, Laws.RoundTrip.sext32_ofInt n h]

theorem decodeLine_publishLine : decodeLine publishLine = .publish := decodeCommand_publish 0

/-- Settles O45: an operation's lines, decoded one by one. -/
theorem scriptOperationsExpandAsTheSpecSays : Obligations.ScriptOperationsExpandAsTheSpecSays := by
  intro n now k hn
  refine ⟨?compose, ?display, ?poll, ?ticks, ?cycle, ?plain⟩
  case compose => rw [assemble_singleton, ScriptOp.lines, List.map_singleton, decodeLine_composeLine hn]
  case display =>
    rw [assemble_singleton, ScriptOp.lines, List.map_cons, List.map_singleton, decodeLine_composeLine hn,
      decodeLine_publishLine]
  case poll => rw [assemble_singleton, ScriptOp.lines, List.map_singleton, decodeLine, decodeCommand_poll]
  case ticks => rw [assemble_singleton, ScriptOp.lines, List.map_replicate, decodeLine]
  case cycle => rw [assemble_singleton, assemble_singleton, ScriptOp.lines, ScriptOp.lines]
  case plain =>
    simp only [assemble, ScriptOp.lines, publishLine, decodeLine, decodeCommand_nop, decodeCommand_publish, List.flatMap_cons,
      List.flatMap_nil, List.cons_append, List.nil_append, List.map_cons, List.map_nil]

end Sys2Proof.Machine
end

section
/-! The font (spec/40_font.md): what FontRead returns at each address, and that it writes nothing else (R104, log 8). -/

namespace Sys2Proof.Machine

@[simp] theorem fontRead_digit (cfg : Cfg) (d : Fin 10) (k : Fin 3) : fontRead cfg (.digit d k) = cfg.font[d][k] := rfl

@[simp] theorem fontRead_minus (cfg : Cfg) (j : Fin 2) : fontRead cfg (.minus j) = cfg.minus[j] := rfl

/-- FontRead completes at every address and writes `returned` alone (R104, log 8). -/
theorem exec_fontRead (g : GlyphCol) (s : State) :
    exec (.fontRead g) s = .next { s with returned := some (fontRead s.cfg g) } := rfl

/-- Settles O15: `exec_fontRead` at an address of each glyph, digit and minus. -/
theorem fontReadReturnsTheFontByte : Obligations.FontReadReturnsTheFontByte := by
  intro s
  refine ⟨fun d k => ?digit, fun j => ?minus⟩
  case digit => rw [exec_fontRead, fontRead_digit]
  case minus => rw [exec_fontRead, fontRead_minus]

end Sys2Proof.Machine
end

section
/-! The compositor (spec/41_compositor.md): NOP, COMPOSE and PUBLISH as whole operations (R129, R132, R133), the saturation of
`compose` (R121), the bytes of its three layouts (R122 to R127, R130), and that a scan step uses none of it (R134, R176). -/

namespace Sys2Proof.Machine

/-! ## The host commands -/

/-- Settles O3: every word with opcode 00 is NOP, which answers its own state. -/
theorem nopLeavesEveryStateElementAsItWas : Obligations.NopLeavesEveryStateElementAsItWas := fun arg _ =>
  ⟨decodeCommand_nop arg, rfl⟩

/-- Settles O4: the memory is that of `composeInto`; the laws of a whole-buffer write say what each of its cells reads. -/
theorem composeWritesTheStagingBufferOnly : Obligations.ComposeWritesTheStagingBufferOnly :=
  ⟨decodeCommand_compose, fun n s => ⟨(s.composeInto n).mem, rfl, composeInto_staging s n,
    writeBuf_read_other s.mem s.stagingSel (compose s.cfg n), composeInto_live s n⟩⟩

/-- Two PUBLISH in a row cancel (R132). -/
theorem swap_swap (s : State) : s.swap.swap = s :=
  congrArg (fun b => { s with liveSel := b }) (one_sub_one_sub s.liveSel)

/-- PUBLISH exchanges the roles of the two buffers: the other one of the new state is the formerly live one (R132). -/
theorem swap_stagingSel (s : State) : s.swap.stagingSel = s.liveSel := one_sub_one_sub s.liveSel

/-- PUBLISH writes no frame buffer (R132). -/
theorem swap_fb (s : State) (b : BufSel) (c : Column) : s.swap.fb b c = s.fb b c := rfl

/-- Settles O5: PUBLISH answers `swap`, which keeps both buffers, exchanges their roles and is its own inverse. -/
theorem publishExchangesLiveAndStaging : Obligations.PublishExchangesLiveAndStaging := by
  refine ⟨decodeCommand_publish, fun s => ⟨s.swap, rfl, rfl, fun c => ⟨swap_fb s _ c, ?_⟩, ?_⟩⟩
  · exact (swap_fb s _ c).trans (congrArg (s.fb · c) (swap_stagingSel s))
  · exact congrArg Host.Outcome.next (swap_swap s)

/-! ## Saturation -/

/-- `compose` sees its operand through the clamp only (R121). -/
theorem compose_congr (cfg : Cfg) {n n' : Int} (h : shownNumber n = shownNumber n') : compose cfg n = compose cfg n' :=
  congrArg (fun m => drawLayout cfg (layoutOf m)) h

/-- The clamp is idempotent (R131). -/
theorem shownNumber_shownNumber (n : Int) : shownNumber (shownNumber n) = shownNumber n := by
  simp only [shownNumber_eq]
  omega

theorem shownNumber_of_gt {n : Int} (h : 99 < n) : shownNumber n = shownNumber 99 := by
  simp only [shownNumber_eq]
  omega

theorem shownNumber_of_lt {n : Int} (h : n < -9) : shownNumber n = shownNumber (-9) := by
  simp only [shownNumber_eq]
  omega

/-- Settles O26: `compose_congr` on the clamped number, which the obligation writes out, and on the two bounds. -/
theorem composeSaturates : Obligations.ComposeSaturates := fun cfg n =>
  ⟨compose_congr cfg (shownNumber_shownNumber n).symm, fun h => compose_congr cfg (shownNumber_of_gt h),
    fun h => compose_congr cfg (shownNumber_of_lt h)⟩

/-! ## The bytes a glyph writes -/

/-- A column that is none of a glyph's `w` columns stands before or after the glyph. -/
theorem outside_of_forall_ne {w a c : Nat} (h : ∀ k : Fin w, c ≠ a + k.val) : c < a ∨ a + w ≤ c := by
  by_contra hin
  have hk : c - a < w := by omega
  exact h ⟨c - a, hk⟩ (show c = a + (c - a) by omega)

theorem colOf_putDigit_inside (cfg : Cfg) {col : Fin 8} (d : Fin 10) (buf : FrameBuf) {c : Column} {k : Fin 3}
    (h : c.toNat = col.val + k.val) : colOf (putDigit cfg col d buf) c = cfg.font[d][k] := by
  have hk : (⟨c.toNat - col.val, by omega⟩ : Fin 3) = k := Fin.ext (show c.toNat - col.val = k.val by omega)
  rw [colOf_putDigit, dif_pos (by omega), hk, fontRead_digit]

theorem colOf_putDigit_outside (cfg : Cfg) {col : Fin 8} (d : Fin 10) (buf : FrameBuf) {c : Column}
    (h : c.toNat < col.val ∨ col.val + 3 ≤ c.toNat) : colOf (putDigit cfg col d buf) c = colOf buf c := by
  rw [colOf_putDigit, dif_neg (by omega)]

theorem colOf_putMinus_inside (cfg : Cfg) {col : Fin 8} (buf : FrameBuf) {c : Column} {j : Fin 2}
    (h : c.toNat = col.val + j.val) : colOf (putMinus cfg col buf) c = cfg.minus[j] := by
  have hj : (⟨c.toNat - col.val, by omega⟩ : Fin 2) = j := Fin.ext (show c.toNat - col.val = j.val by omega)
  rw [colOf_putMinus, dif_pos (by omega), hj, fontRead_minus]

theorem colOf_putMinus_outside (cfg : Cfg) {col : Fin 8} (buf : FrameBuf) {c : Column}
    (h : c.toNat < col.val ∨ col.val + 2 ≤ c.toNat) : colOf (putMinus cfg col buf) c = colOf buf c := by
  rw [colOf_putMinus, dif_neg (by omega)]

/-! ## The layout of a number, and its blank columns -/

/-- The two-digit layout is that of the numbers from 10 upwards (R121, R122). -/
theorem compose_of_ten_le (cfg : Cfg) {n : Int} (hn : 10 ≤ n) : ∃ t o, compose cfg n = drawLayout cfg (.two t o) := by
  have hm : shownNumber n ≥ 10 := by rw [shownNumber_eq]; omega
  exact ⟨_, _, congrArg (drawLayout cfg) (if_pos hm)⟩

/-- The one-digit layout is that of the numbers 0..9 (R122). -/
theorem compose_of_digit (cfg : Cfg) {n : Int} (h0 : 0 ≤ n) (hn : n < 10) :
    ∃ d, compose cfg n = drawLayout cfg (.one d) := by
  have hten : ¬ shownNumber n ≥ 10 := by rw [shownNumber_eq]; omega
  have hzero : shownNumber n ≥ 0 := by rw [shownNumber_eq]; omega
  exact ⟨_, congrArg (drawLayout cfg) ((if_neg hten).trans (if_pos hzero))⟩

/-- The negative layout is that of the numbers below 0 (R121, R122). -/
theorem compose_of_neg (cfg : Cfg) {n : Int} (hn : n < 0) : ∃ d, compose cfg n = drawLayout cfg (.neg d) := by
  have hten : ¬ shownNumber n ≥ 10 := by rw [shownNumber_eq]; omega
  have hzero : ¬ shownNumber n ≥ 0 := by rw [shownNumber_eq]; omega
  exact ⟨_, congrArg (drawLayout cfg) ((if_neg hten).trans (if_neg hzero))⟩

/-- A column outside both glyphs of the two-digit layout is blank (R127). -/
theorem compose_two_blank (cfg : Cfg) {n : Int} (hn : 10 ≤ n) {c : Column}
    (ht : c.toNat < cfg.tensCol.val ∨ cfg.tensCol.val + 3 ≤ c.toNat)
    (ho : c.toNat < cfg.onesCol.val ∨ cfg.onesCol.val + 3 ≤ c.toNat) : colOf (compose cfg n) c = 0x00 := by
  obtain ⟨t, o, h⟩ := compose_of_ten_le cfg hn
  rw [h, drawLayout, colOf_putDigit_outside cfg o _ ho, colOf_putDigit_outside cfg t _ ht, colOf_blankBuf]

/-- A column outside the glyph of the one-digit layout is blank (R127). -/
theorem compose_one_blank (cfg : Cfg) {n : Int} (h0 : 0 ≤ n) (hn : n < 10) {c : Column}
    (hs : c.toNat < cfg.singleCol.val ∨ cfg.singleCol.val + 3 ≤ c.toNat) : colOf (compose cfg n) c = 0x00 := by
  obtain ⟨d, h⟩ := compose_of_digit cfg h0 hn
  rw [h, drawLayout, colOf_putDigit_outside cfg d _ hs, colOf_blankBuf]

/-- A column outside both glyphs of the negative layout is blank (R127). -/
theorem compose_neg_blank (cfg : Cfg) {n : Int} (hn : n < 0) {c : Column}
    (hm : c.toNat < cfg.negMinusCol.val ∨ cfg.negMinusCol.val + 2 ≤ c.toNat)
    (hd : c.toNat < cfg.negDigitCol.val ∨ cfg.negDigitCol.val + 3 ≤ c.toNat) : colOf (compose cfg n) c = 0x00 := by
  obtain ⟨d, h⟩ := compose_of_neg cfg hn
  rw [h, drawLayout, colOf_putDigit_outside cfg d _ hd, colOf_putMinus_outside cfg _ hm, colOf_blankBuf]

/-! ## The three layouts -/

theorem compose_tens_ones (cfg : Cfg) {t : Fin 10} (o : Fin 10) (ht : 1 ≤ t.val) :
    compose cfg (10 * (t.val : Int) + o.val) = putDigit cfg cfg.onesCol o (putDigit cfg cfg.tensCol t blankBuf) := by
  rw [compose, layout_two t o ht, drawLayout]

theorem compose_single (cfg : Cfg) (d : Fin 10) : compose cfg (d.val : Int) = putDigit cfg cfg.singleCol d blankBuf := by
  rw [compose, layout_one, drawLayout]

theorem compose_minus (cfg : Cfg) {d : Fin 10} (hd : 1 ≤ d.val) :
    compose cfg (-(d.val : Int)) = putDigit cfg cfg.negDigitCol d (putMinus cfg cfg.negMinusCol blankBuf) := by
  rw [compose, layout_neg d hd, drawLayout]

/-- Settles O27: the ones glyph is drawn over the tens glyph, but R8 (b) keeps it off the tens glyph's columns. -/
theorem twoDigitLayoutShowsTensAndOnes : Obligations.TwoDigitLayoutShowsTensAndOnes := by
  intro cfg t o _ hsep ht buf
  obtain ⟨hgap, -⟩ := glyphsSeparated_bounds hsep
  have hbuf : buf = _ := compose_tens_ones cfg o ht
  refine ⟨fun c k hc => ?tens, fun c k hc => ?ones, fun c hc => ?blank⟩
  case tens => rw [hbuf, colOf_putDigit_outside cfg o _ (by omega), colOf_putDigit_inside cfg t _ hc]
  case ones => rw [hbuf, colOf_putDigit_inside cfg o _ hc]
  case blank =>
    exact compose_two_blank cfg (by omega) (outside_of_forall_ne fun k => (hc k).1) (outside_of_forall_ne fun k => (hc k).2)

/-- Settles O28: one glyph in a blank buffer. -/
theorem oneDigitLayoutShowsTheGlyph : Obligations.OneDigitLayoutShowsTheGlyph := by
  intro cfg d _ buf
  have hbuf : buf = _ := compose_single cfg d
  refine ⟨fun c k hc => ?glyph, fun c hc => ?blank⟩
  case glyph => rw [hbuf, colOf_putDigit_inside cfg d _ hc]
  case blank => exact compose_one_blank cfg (by omega) (by omega) (outside_of_forall_ne hc)

/-- Settles O29: the digit is drawn over the minus glyph, but R8 (b) keeps it off the minus glyph's columns. -/
theorem negativeLayoutShowsMinusAndDigit : Obligations.NegativeLayoutShowsMinusAndDigit := by
  intro cfg d _ hsep hd buf
  obtain ⟨-, hgap⟩ := glyphsSeparated_bounds hsep
  have hbuf : buf = _ := compose_minus cfg hd
  refine ⟨fun c j hc => ?minus, fun c k hc => ?digit, fun c hm hk => ?blank⟩
  case minus => rw [hbuf, colOf_putDigit_outside cfg d _ (by omega), colOf_putMinus_inside cfg _ hc]
  case digit => rw [hbuf, colOf_putDigit_inside cfg d _ hc]
  case blank => exact compose_neg_blank cfg (by omega) (outside_of_forall_ne hm) (outside_of_forall_ne hk)

/-! ## Separation -/

theorem exists_column {a : Nat} (h : a < 8) : ∃ c : Column, c.toNat = a := ⟨BitVec.ofNatLT a h, rfl⟩

/-- R130 (a): R8 (b) leaves the column after the tens glyph to neither glyph. -/
theorem compose_two_separator {cfg : Cfg} {n : Int} (hsep : cfg.glyphsSeparated = true) (hn : 10 ≤ n) :
    ∃ c : Column, cfg.tensCol.val + 2 < c.toNat ∧ c.toNat < cfg.onesCol.val ∧ colOf (compose cfg n) c = 0x00 := by
  obtain ⟨hgap, -⟩ := glyphsSeparated_bounds hsep
  obtain ⟨c, hc⟩ := exists_column (a := cfg.tensCol.val + 3) (by omega)
  exact ⟨c, by omega, by omega, compose_two_blank cfg hn (by omega) (by omega)⟩

/-- R130 (a): R8 (b) leaves the column after the minus glyph to neither glyph. -/
theorem compose_neg_separator {cfg : Cfg} {n : Int} (hsep : cfg.glyphsSeparated = true) (hn : n < 0) :
    ∃ c : Column, cfg.negMinusCol.val + 1 < c.toNat ∧ c.toNat < cfg.negDigitCol.val ∧ colOf (compose cfg n) c = 0x00 := by
  obtain ⟨-, hgap⟩ := glyphsSeparated_bounds hsep
  obtain ⟨c, hc⟩ := exists_column (a := cfg.negMinusCol.val + 2) (by omega)
  exact ⟨c, by omega, by omega, compose_neg_blank cfg hn (by omega) (by omega)⟩

/-- Settles O30: a separator in each layout of two glyphs; with the default layout, columns 7, 0 and 3 lie outside the glyphs of the
layouts in question. -/
theorem aBlankColumnSeparatesTheGlyphs : Obligations.ABlankColumnSeparatesTheGlyphs := by
  intro cfg n _ hsep
  refine ⟨compose_two_separator hsep, compose_neg_separator hsep, fun ht ho hs hm hd => ?_⟩
  refine ⟨?column7, fun hn => ?column0, fun hn => ?column3⟩
  case column7 =>
    obtain hn | hn | ⟨h0, hn⟩ : 10 ≤ n ∨ n < 0 ∨ (0 ≤ n ∧ n < 10) := by omega
    · exact compose_two_blank cfg hn (by simp [ht]) (by simp [ho])
    · exact compose_neg_blank cfg hn (by simp [hm]) (by simp [hd])
    · exact compose_one_blank cfg h0 hn (by simp [hs])
  case column0 =>
    obtain hneg | h0 := lt_or_ge n 0
    · exact compose_neg_blank cfg hneg (by simp [hm]) (by simp [hd])
    · exact compose_one_blank cfg h0 hn (by simp [hs])
  case column3 =>
    obtain hn | hn := hn
    · exact compose_two_blank cfg hn (by simp [ht]) (by simp [ho])
    · exact compose_neg_blank cfg hn (by simp [hm]) (by simp [hd])

/-! ## What a scan step reads of the configuration -/

/-- Two configurations with the same polarities and the same byte order, the three wiring parameters of R7. -/
structure SameWiring (cfg cfg' : Cfg) : Prop where
  rowActiveLow : cfg.rowActiveLow = cfg'.rowActiveLow
  colActiveLow : cfg.colActiveLow = cfg'.colActiveLow
  rowFirst : cfg.rowFirst = cfg'.rowFirst

section
variable {cfg cfg' : Cfg} (h : SameWiring cfg cfg')
include h

theorem SameWiring.rmask : cfg.rmask = cfg'.rmask := by rw [Cfg.rmask, Cfg.rmask, h.rowActiveLow]

theorem SameWiring.cmask : cfg.cmask = cfg'.cmask := by rw [Cfg.cmask, Cfg.cmask, h.colActiveLow]

theorem SameWiring.frame (rb cb : Byte) : cfg.frame rb cb = cfg'.frame rb cb := by rw [Cfg.frame, Cfg.frame, h.rowFirst]

theorem SameWiring.blank : cfg.blank = cfg'.blank := by rw [Cfg.blank, Cfg.blank, h.rmask, h.cmask, h.frame]

theorem SameWiring.dataWord (v : Byte) (c : Column) : cfg.dataWord v c = cfg'.dataWord v c := by
  simp only [Cfg.dataWord, Cfg.rowPattern, Cfg.colSelect, h.rmask, h.cmask, h.frame]

theorem SameWiring.scanEvents (v : Byte) (c : Column) : scanEvents cfg v c = scanEvents cfg' v c := by
  rw [Machine.scanEvents, Machine.scanEvents, h.blank, h.dataWord]

end

/-- A scan step reads the wiring of the configuration and no more (R134, R176). -/
theorem scan_withCfg {s : State} {cfg : Cfg} (h : SameWiring cfg s.cfg) :
    ({ s with cfg := cfg } : State).scan = { s.scan with cfg := cfg } := by
  have hfb : ({ s with cfg := cfg } : State).fb s.liveSel s.cursor = s.fb s.liveSel s.cursor := rfl
  simp only [scan_eq, hfb, h.dataWord, h.scanEvents]

/-- Settles O34: `scan_withCfg`. -/
theorem scanDependsOnNeitherFontNorLayout : Obligations.ScanDependsOnNeitherFontNorLayout := fun s _ hrow hcol hfirst =>
  ⟨s.scan, rfl, congrArg Host.Outcome.next (scan_withCfg ⟨hrow, hcol, hfirst⟩)⟩

end Sys2Proof.Machine
end

section
/-! The scanner (spec/42_scanner.md): POLL and TICK as the two mechanisms that start a scan step (R170 to R173), the pin events
of TX, LATCH_PULSE and SCAN (R158, R160 to R162, R165), what the trace of whole scan steps latches (R164, R174, R175), and
that no other step of the block moves a pin (R163). -/

namespace Sys2Proof.Machine

/-! ## POLL and TICK -/

/-- In POLLED mode POLL is due when the elapsed time, modulo `2^32`, is at least the interval (R171). -/
theorem pollDue_polled {s : State} (hm : s.cfg.scanMode = .polled) (now : Word32) :
    s.pollDue now = decide (s.cfg.scanInterval.toNat ≤ (now.toNat + 2 ^ 32 - s.lastRefresh.toNat) % 2 ^ 32) := by
  rw [← elapsed_toNat, State.pollDue, hm]

theorem exec_poll_of_due {s : State} {now : Word32} (h : s.pollDue now = true) :
    exec (.poll now) s = .next { s.scan with lastRefresh := now } := congrArg Host.Outcome.next (if_pos h)

theorem exec_poll_of_not_due {s : State} {now : Word32} (h : s.pollDue now = false) : exec (.poll now) s = .next s :=
  congrArg Host.Outcome.next (if_neg (by simp [h]))

theorem exec_poll_timer {s : State} (hm : s.cfg.scanMode = .timer) (now : Word32) : exec (.poll now) s = .next s :=
  congrArg Host.Outcome.next (poll_timer hm now)

theorem exec_tick_timer {s : State} (hm : s.cfg.scanMode = .timer) : exec .tick s = .next s.scan := by
  simp only [exec, execTick, hm]

theorem exec_tick_polled {s : State} (hm : s.cfg.scanMode = .polled) : exec .tick s = .refused .tickInPolledMode := by
  simp only [exec, execTick, hm]

/-- Settles O6: POLL's outcome is decided by `pollDue`, which in POLLED mode is the comparison of the statement. -/
theorem pollScansOnceWhenTheIntervalHasElapsed : Obligations.PollScansOnceWhenTheIntervalHasElapsed := by
  intro now s
  refine ⟨decodeCommand_poll now, fun hm hdue => ?due, fun hm hearly => ?early, fun hm => exec_poll_timer hm now⟩
  case due => exact ⟨s.scan, rfl, exec_poll_of_due (by rw [pollDue_polled hm, decide_eq_true hdue])⟩
  case early => exact exec_poll_of_not_due (by rw [pollDue_polled hm, decide_eq_false (Nat.not_le_of_lt hearly)])

/-- The modular difference of two times less than `2^32` apart is their true difference (R173). -/
theorem elapsed_of_true_times {last now : Nat} (hle : last ≤ now) (hlt : now - last < 2 ^ 32) :
    ((BitVec.ofNat 32 now).toNat + 2 ^ 32 - (BitVec.ofNat 32 last).toNat) % 2 ^ 32 = now - last := by
  rw [BitVec.toNat_ofNat, BitVec.toNat_ofNat]
  omega

/-- Settles O7: POLL compares the modular difference, which here is the true one. -/
theorem pollIsRightAcrossAWrapOfTheHostClock : Obligations.PollIsRightAcrossAWrapOfTheHostClock := by
  intro s last now hm hlast hle hlt
  have hdue : s.pollDue (BitVec.ofNat 32 now) = decide (s.cfg.scanInterval.toNat ≤ now - last) := by
    rw [pollDue_polled hm, hlast, elapsed_of_true_times hle hlt]
  exact ⟨fun h => exec_poll_of_due (by rw [hdue, decide_eq_true h]),
    fun h => exec_poll_of_not_due (by rw [hdue, decide_eq_false (Nat.not_le_of_lt h)])⟩

/-- Settles O8: POLL and TICK in each of the two modes; the one that scans advances the cursor as SCAN does. -/
theorem onlyTheModesOwnMechanismStartsScanSteps : Obligations.OnlyTheModesOwnMechanismStartsScanSteps := by
  intro now s
  refine ⟨fun hm => ⟨exec_poll_timer hm now, s.scan, exec_tick_timer hm, scan_cursor s⟩,
    fun hm => ⟨exec_tick_polled hm, fun hdue => ?_⟩⟩
  exact ⟨_, exec_poll_of_due (by rw [pollDue_polled hm, decide_eq_true hdue]), scan_cursor s⟩

/-- Settles O10: `exec_tick_timer`. -/
theorem tickIsAScanStepInTimerMode : Obligations.TickIsAScanStepInTimerMode := fun s hm =>
  ⟨s.scan, rfl, exec_tick_timer hm⟩

/-- One step of a TIMER block with nothing scheduled is a scan step (R170, log 3). -/
theorem step_idle_timer {s : State} (hw : s.cfg.wf = true) (hm : s.cfg.scanMode = .timer) (hs : s.script = [])
    (hb : s.bench = none) : step s = .next s.scan := by
  have hadm : scriptAdmitted s.cfg s.script = true := (scriptAdmitted_iff _ _).2 fun _ => by simp [hs]
  rw [step_eq hw hadm, fetch_idle hb hs, idleInstr_timer hm, exec_tick_timer hm]

/-- Settles O49: each step is a scan step, after which nothing is scheduled again. -/
theorem anIdleTimerBlockScansOnItsOwn : Obligations.AnIdleTimerBlockScansOnItsOwn := by
  intro s k hw hm hs hb
  induction k generalizing s with
  | zero => rfl
  | succ k ih =>
    rw [run_next Sys2Proof.core k s s.scan (step_idle_timer hw hm hs hb), scans_next]
    exact ih s.scan (by rwa [scan_cfg]) (by rwa [scan_cfg]) (by rwa [scan_script]) (by rwa [scan_bench])

/-! ## Pin events -/

/-- The shift of R221 as arithmetic: twice the stages plus DATA, modulo `2^16`. -/
theorem shift_eq_ofNat (ch : Chain) (d : Bool) :
    ch.shift d = ⟨BitVec.ofNat 16 ((ch.sr.toNat * 2 + d.toNat) % 2 ^ 16), ch.out⟩ := by
  refine congrArg (Chain.mk · ch.out) (BitVec.eq_of_toNat_eq ?_)
  have hd : d.toNat < 2 := d.toNat_lt
  rw [BitVec.toNat_concat, BitVec.toNat_setWidth, BitVec.toNat_ofNat]
  omega

/-- Settles O14: one pin at a time; a CLOCK or LATCH event moves the chain in the one of its four cases that is a rising edge. -/
theorem pinEventsMoveTheChainOnRisingEdgesOnly : Obligations.PinEventsMoveTheChainOnRisingEdgesOnly := by
  intro s l
  refine ⟨rfl, ?clock, ?latch⟩
  case clock => cases hc : s.pins.clock <;> cases l <;> simp [State.pinEvent, wireStep, hc, shift_eq_ofNat]
  case latch => cases hl : s.pins.latch <;> cases l <;> simp [State.pinEvent, wireStep, hl, Chain.load]

/-- Settles O13: the replay of the two LATCH events. -/
theorem latchPulseLoadsAllOutputsAtOnce : Obligations.LatchPulseLoadsAllOutputsAtOnce := by
  intro s
  refine congrArg Host.Outcome.next ?_
  rw [State.latchPulse, drive_eq, replay_latch]
  cases s.pins.latch <;> rfl

/-- The pin events of a word's bits, in any order of positions: three for each bit (R161). -/
theorem getElem?_bits (w : FrameWord) {ks : List Nat} {k : Nat} (hk : k < ks.length) :
    (ks.flatMap fun j => bitEvents (w.getLsbD j))[3 * k]? = some ⟨.data, w.getLsbD ks[k]⟩ ∧
    (ks.flatMap fun j => bitEvents (w.getLsbD j))[3 * k + 1]? = some ⟨.clock, true⟩ ∧
    (ks.flatMap fun j => bitEvents (w.getLsbD j))[3 * k + 2]? = some ⟨.clock, false⟩ := by
  induction ks generalizing k with
  | nil => cases hk
  | cons j ks ih =>
    cases k with
    | zero => exact ⟨rfl, rfl, rfl⟩
    | succ k => exact ih (Nat.lt_of_succ_lt_succ hk)

/-- Position `k` in the order of transmission is bit `15 - k` (R54). -/
theorem bitOrder_getElem {k : Nat} (hk : k < bitOrder.length) : bitOrder[k] = 15 - k := by
  revert k
  decide

/-- TX from any level of CLOCK, with what it leaves in the chain's stages when CLOCK was low (R161, R221). -/
theorem replay_tx_stages (p : Pins) (ch : Chain) (w : FrameWord) :
    ∃ sr, replay p ch (txEvents w) = (⟨w.getLsbD 0, false, p.latch⟩, ⟨sr, ch.out⟩) ∧ (p.clock = false → sr = w) := by
  obtain ⟨sr, h⟩ := replay_tx_any p ch w
  refine ⟨sr, h, fun hc => ?_⟩
  rw [replay_tx p ch w hc] at h
  injection h with _ hchain
  injection hchain with hsr
  exact hsr.symm

/-- Settles O12: the pins and the chain by `replay_tx_stages`, the events by `getElem?_bits` in the order of `bitOrder`. -/
theorem txShiftsTheWordMostSignificantBitFirst : Obligations.TxShiftsTheWordMostSignificantBitFirst := by
  intro w s
  obtain ⟨sr, hreplay, hsr⟩ := replay_tx_stages s.pins s.chain w
  refine ⟨txEvents w, sr, ?_, txEvents_length w, fun k hk => ?_, hsr⟩
  · refine congrArg Host.Outcome.next ?_
    rw [State.tx, drive_eq, hreplay]
  · have hlen : k < bitOrder.length := hk
    have hbits := getElem?_bits w hlen
    rwa [bitOrder_getElem hlen] at hbits

/-! ## One scan step -/

/-- The cursor's increment as arithmetic (R157). -/
theorem column_succ (c : Column) : c + 1 = BitVec.ofNat 3 ((c.toNat + 1) % 8) :=
  BitVec.eq_of_toNat_eq (by simp [BitVec.toNat_add])

theorem scanEvents_flat (cfg : Cfg) (v : Byte) (c : Column) : scanEvents cfg v c =
    txEvents cfg.blank ++ latchEvents ++ txEvents (cfg.dataWord v c) ++ latchEvents := (List.append_assoc _ _ _).symm

/-- Settles O11: `scan_eq`, with the words and the cursor written out. -/
theorem scanBlanksTransmitsAndAdvances : Obligations.ScanBlanksTransmitsAndAdvances := by
  intro s
  refine congrArg Host.Outcome.next ?_
  rw [scan_eq, column_succ, scanEvents_flat]
  rfl

theorem countP_data_txEvents (w : FrameWord) : (txEvents w).countP (fun e => e.pin = .data) = 16 := rfl

theorem count_clock_txEvents (w : FrameWord) (l : Bool) : (txEvents w).count ⟨.clock, l⟩ = 16 := by
  cases l <;> rfl

theorem count_latch_txEvents (w : FrameWord) (l : Bool) : (txEvents w).count ⟨.latch, l⟩ = 0 :=
  List.count_eq_zero.2 fun h => tx_no_latch h rfl

/-- Settles O18: a scan step is two transmissions, each with its latch pulse, so every count is twice one transmission's. -/
theorem scanAppendsExactlyOneHundredPinEvents : Obligations.ScanAppendsExactlyOneHundredPinEvents := by
  intro s
  refine ⟨s.scan, _, rfl, scan_trace s, scanEvents_length _ _ _, ?_⟩
  simp only [scanEvents, List.countP_append, List.count_append, countP_data_txEvents, count_clock_txEvents,
    count_latch_txEvents]
  decide

/-! ## The trace of whole scan steps -/

/-- R164 for whole scan steps: 16 clocks before each of the two latch pulses of every one of them. -/
theorem latchGaps_scanTrace (cfg : Cfg) (c : Column) (vs : List Byte) :
    latchGaps 0 (scanTrace cfg c vs) = List.replicate (2 * vs.length) 16 := by
  induction vs generalizing c with
  | nil => rfl
  | cons v vs ih => rw [scanTrace, latchGaps_scan, ih]; rfl

/-- What whole scan steps latch from idle pins, numbered from `n` on: for each of them BLANK and its data word. -/
theorem latched_scanTrace (cfg : Cfg) {p : Pins} (ch : Chain) (c : Column) (n : Nat) (vs : List Byte)
    (hc : p.clock = false) (hl : p.latch = false) :
    latchedWords p ch (scanTrace cfg (c + BitVec.ofNat 3 n) vs) =
      (vs.zipIdx n).flatMap fun x => [cfg.blank, cfg.dataWord x.1 (c + BitVec.ofNat 3 x.2)] := by
  induction vs generalizing p ch n with
  | nil => rfl
  | cons v vs ih =>
    have hnext : c + BitVec.ofNat 3 n + 1 = c + BitVec.ofNat 3 (n + 1) := by rw [BitVec.ofNat_add, BitVec.add_assoc]; rfl
    rw [scanTrace, latched_append, latched_scan cfg p ch v _ hc hl, replay_scan, hnext, ih _ _ rfl rfl,
      List.zipIdx_cons, List.flatMap_cons]

/-- Settles O19: the trace of an invariant state is whole scan steps from column 0 on. -/
theorem sixteenClocksBeforeEveryLatch : Obligations.SixteenClocksBeforeEveryLatch := by
  intro s hinv
  obtain ⟨vs, htrace, -⟩ := hinv.trace
  rw [htrace]
  refine ⟨vs, latchGaps_scanTrace s.cfg 0 vs, fun ch => ?_⟩
  simpa using latched_scanTrace s.cfg (p := ⟨false, false, false⟩) ch 0 0 vs rfl rfl

/-- The bytes that `k` scan steps capture: the live buffer's, from the cursor on (R151, R174). -/
def State.captured (s : State) (k : Nat) : List Byte :=
  (List.range k).map fun j => s.fb s.liveSel (s.cursor + BitVec.ofNat 3 j)

theorem captured_length (s : State) (k : Nat) : (s.captured k).length = k := by
  rw [State.captured, List.length_map, List.length_range]

/-- The captured bytes with their numbers: the `j`-th is that of the `j`-th column from the cursor on. -/
theorem captured_zipIdx (s : State) (k : Nat) : (s.captured k).zipIdx =
    (List.range k).map fun j => (s.fb s.liveSel (s.cursor + BitVec.ofNat 3 j), j) := by
  refine List.ext_getElem (by simp [captured_length]) fun j _ _ => ?_
  simp [State.captured]

theorem scans_cursor (s : State) (k : Nat) : (s.scans k).cursor = s.cursor + BitVec.ofNat 3 k := by
  obtain ⟨-, -, -, hcursor⟩ := scans_facts s k
  exact hcursor

theorem scans_fb (s : State) (k : Nat) (b : BufSel) (c : Column) : (s.scans k).fb b c = s.fb b c := by
  obtain ⟨-, hmem, -, -⟩ := scans_facts s k
  rw [State.fb, hmem, State.fb]

theorem scans_trace (s : State) (k : Nat) : (s.scans k).trace = s.trace ++ scanTrace s.cfg s.cursor (s.captured k) := by
  induction k with
  | zero => simp [scans_zero, State.captured, scanTrace]
  | succ k ih =>
    obtain ⟨hcfg, -, hlive, hcursor⟩ := scans_facts s k
    have hcaptured : s.captured (k + 1) = s.captured k ++ [s.fb s.liveSel (s.cursor + BitVec.ofNat 3 k)] := by
      rw [State.captured, List.range_succ, List.map_append]; rfl
    rw [scans_succ, scan_trace, ih, scans_fb, hcfg, hlive, hcursor, hcaptured, scanTrace_append, captured_length,
      scanTrace, scanTrace, List.append_nil, List.append_assoc]

/-- Settles O20: `scans_cursor` for the cursor, `scans_trace` for the columns; that NOP, PUBLISH and COMPOSE leave the cursor is
O37. -/
theorem scanStepsDriveTheColumnsInOrder : Obligations.ScanStepsDriveTheColumnsInOrder := by
  intro s k
  refine ⟨?_, scans_trace s k, ?_, fun i t hi he => ?_⟩
  · rw [scans_cursor, BitVec.ofNat_add, BitVec.ofNat_toNat, BitVec.setWidth_eq]
  · rw [scans_cursor]
    exact BitVec.add_zero s.cursor
  · by_contra hmoved
    obtain ⟨hnop, hpublish, hcompose⟩ := (theCursorOnlyAdvancesByOneOrIsReset i s t he).2 hmoved
    obtain rfl | rfl | ⟨n, rfl⟩ := hi
    · exact hnop rfl
    · exact hpublish rfl
    · exact hcompose n rfl

/-- Settles O21: the eight scan steps extend the trace by whole scan steps, and `latched_scanTrace` says what these latch. -/
theorem refreshCycleLatchesEveryColumnOnce : Obligations.RefreshCycleLatchesEveryColumnOnce := by
  intro s hc hl
  refine ⟨_, scans_trace s 8, ?_⟩
  have hlatched := latched_scanTrace s.cfg s.chain s.cursor 0 (s.captured 8) hc hl
  rwa [BitVec.add_zero, captured_zipIdx, List.flatMap_map] at hlatched

/-! ## Only scan steps move the pins -/

/-- The wires, the trace and the cursor are as they were, and so is the bench (R163, log 7). -/
structure State.SameWires (s t : State) : Prop where
  trace : t.trace = s.trace
  pins : t.pins = s.pins
  chain : t.chain = s.chain
  cursor : t.cursor = s.cursor
  bench : t.bench = s.bench

/-- With nothing on the bench the fetch takes off a line of the script and touches nothing else. -/
theorem fetch_withScript {s : State} (hb : s.bench = none) : ∃ script, s.fetch.2 = { s with script := script } := by
  obtain ⟨w, hw, -⟩ | ⟨-, l, rest, -, hf⟩ | ⟨-, -, hf⟩ := fetch_cases s
  · rw [hb] at hw
    cases hw
  · exact ⟨rest, by rw [hf]⟩
  · exact ⟨s.script, by rw [hf]⟩

/-- A scan step does not read the script. -/
theorem scan_withScript (s : State) (script : List Line) :
    ({ s with script := script } : State).scan = { s.scan with script := script } := by
  rw [scan_eq, scan_eq]
  rfl

/-- R163: a step of the block leaves the wires, or does to them what SCAN or what RESET does. -/
theorem step_wires {s t : State} (hb : s.bench = none) (hstep : step s = .next t) :
    s.SameWires t ∨ s.scan.SameWires t ∨ s.resetBlock.SameWires t := by
  obtain ⟨-, he⟩ := step_next hstep
  obtain ⟨-, hagents⟩ := fetch_agents hb
  obtain ⟨script, hf⟩ := fetch_withScript hb
  have hscan : s.scan.SameWires s.fetch.2.scan := by rw [hf, scan_withScript s script]; exact ⟨rfl, rfl, rfl, rfl, rfl⟩
  rw [hf] at he hscan
  obtain hi | ⟨n, hi⟩ | hi | ⟨now, hi⟩ | hi | hi := hagents <;> rw [hi] at he
  · cases he; exact .inl ⟨rfl, rfl, rfl, rfl, rfl⟩
  · cases he; exact .inl ⟨rfl, rfl, rfl, rfl, rfl⟩
  · cases he; exact .inl ⟨rfl, rfl, rfl, rfl, rfl⟩
  · cases he
    obtain hp | hp := poll_cases { s with script := script } now <;> rw [hp]
    · exact .inl ⟨rfl, rfl, rfl, rfl, rfl⟩
    · exact .inr (.inl ⟨hscan.trace, hscan.pins, hscan.chain, hscan.cursor, hscan.bench⟩)
  · rw [eq_scan_of_exec_tick he]
    exact .inr (.inl hscan)
  · cases he; exact .inr (.inr ⟨rfl, rfl, rfl, rfl, rfl⟩)

/-- Whole scan steps are no events at all only when there is none of them. -/
theorem scanTrace_eq_nil {cfg : Cfg} {c : Column} {vs : List Byte} : scanTrace cfg c vs = [] ↔ vs = [] := by
  cases vs with
  | nil => simp [scanTrace]
  | cons v vs =>
    have : scanEvents cfg v c ≠ [] := List.ne_nil_of_length_pos (by rw [scanEvents_length]; omega)
    simp [scanTrace, this]

theorem State.Inv.data_of_trace_nil {s : State} (h : s.Inv) (ht : s.trace = []) : s.pins.data = false := by
  obtain ⟨vs, htrace, -, -, hshows⟩ := h.trace
  obtain rfl : vs = [] := scanTrace_eq_nil.1 (htrace ▸ ht)
  exact hshows

theorem State.Inv.data_of_trace_ne_nil {s : State} (h : s.Inv) (ht : s.trace ≠ []) :
    s.pins.data = (s.cfg.dataWord s.colLatch (s.cursor - 1)).getLsbD 0 := by
  obtain ⟨vs, htrace, -, hcaptured, hshows⟩ := h.trace
  have hvs : vs ≠ [] := fun hvs => ht (htrace.trans (scanTrace_eq_nil.2 hvs))
  rw [List.getLast?_eq_some_getLast hvs, Option.getD_some] at hcaptured
  rw [State.showsLast, List.getLast?_eq_some_getLast hvs, ← hcaptured] at hshows
  obtain ⟨-, -, hdata⟩ := hshows
  exact hdata

/-- Settles O59: `step_wires`, where every case leaves the bench as it was; and the pins of the invariant. -/
theorem pinEventsComeFromScanStepsOnly : Obligations.PinEventsComeFromScanStepsOnly := by
  refine ⟨fun s t hb hstep => ?_, fun s hinv => ?_⟩
  · obtain h | h | h := step_wires hb hstep
    · exact ⟨h.bench.trans hb, .inl ⟨h.trace, h.pins, h.chain, h.cursor⟩⟩
    · exact ⟨h.bench.trans ((scan_bench s).trans hb), .inr (.inl ⟨s.scan, rfl, h.trace, h.pins, h.chain, h.cursor⟩)⟩
    · exact ⟨h.bench.trans hb, .inr (.inr ⟨h.trace, h.pins, h.chain, h.cursor⟩)⟩
  · obtain ⟨hclock, hlatch⟩ := hinv.pinsLow
    exact ⟨hclock, hlatch, hinv.data_of_trace_nil, hinv.data_of_trace_ne_nil⟩

end Sys2Proof.Machine
end

section
/-! The external chain, the matrix and the agents' interleaving (spec/60_exceptions.md): what OUT and the LEDs show during and
after a scan step (R225 to R228), that a scan step ends before the next can start (R207, R208, R261), and that a clock edge is
whole operations, the tick before the command (R204). -/

namespace Sys2Proof.Machine

/-! ## After a scan step -/

theorem scan_out (s : State) : s.scan.chain.out = s.cfg.dataWord (s.fb s.liveSel s.cursor) s.cursor := by rw [scan_chain]

/-- Settles O22: after SCAN the outputs are the data word, which `lit_dataWord` reads as LEDs. -/
theorem afterAScanStepOneColumnShowsTheCapturedByte : Obligations.AfterAScanStepOneColumnShowsTheCapturedByte := by
  intro s
  refine ⟨s.scan, rfl, scan_out s, fun i c => ?_⟩
  rw [scan_out, lit_dataWord]

/-- After the `j+1`-th of several scan steps the LEDs show the live buffer's byte of column `cursor + j` (R225, R228). -/
theorem lit_scans (s : State) (j : Nat) (i : Fin 8) (c : Column) : lit s.cfg (s.scans (j + 1)).chain.out i c =
    ((s.fb s.liveSel c).getLsbD i.val && decide (c = s.cursor + BitVec.ofNat 3 j)) := by
  obtain ⟨hcfg, -, hlive, hcursor⟩ := scans_facts s j
  rw [scans_succ, scan_out, hcfg, hlive, hcursor, scans_fb, lit_dataWord]
  by_cases hc : c = s.cursor + BitVec.ofNat 3 j
  · rw [← hc]
  · rw [decide_eq_false hc, Bool.and_false, Bool.and_false]

/-- Eight consecutive columns are every column once (R174). -/
theorem countP_column (start c : Column) : (List.range 8).countP (fun j => c = start + BitVec.ofNat 3 j) = 1 := by
  revert start c
  decide

/-- Settles O24: `lit_scans` for each of the eight steps, one of which drives the LED's column. -/
theorem refreshCycleLightsEachSetLedOnce : Obligations.RefreshCycleLightsEachSetLedOnce := by
  intro s i c
  simp only [lit_scans]
  cases (s.fb s.liveSel c).getLsbD i.val
  · simp
  · simpa using countP_column s.cursor c

/-- After the first scan step since reset OUT is the data word of the byte last captured (R225, R227). -/
theorem State.Inv.out_of_trace_ne_nil {s : State} (h : s.Inv) (ht : s.trace ≠ []) :
    s.chain.out = s.cfg.dataWord s.colLatch (s.cursor - 1) := by
  obtain ⟨vs, htrace, -, hcaptured, hshows⟩ := h.trace
  have hvs : vs ≠ [] := fun hvs => ht (htrace.trans (scanTrace_eq_nil.2 hvs))
  rw [List.getLast?_eq_some_getLast hvs, Option.getD_some] at hcaptured
  rw [State.showsLast, List.getLast?_eq_some_getLast hvs, ← hcaptured] at hshows
  obtain ⟨-, hout, -⟩ := hshows
  exact hout

/-- A data word makes its own column line active and no other (R227). -/
theorem colActive_dataWord (cfg : Cfg) (v : Byte) (c' c : Column) :
    colActive cfg (cfg.dataWord v c') c = decide (c = c') := by
  rw [colActive, Cfg.dataWord, colByte_frame, colSelect_bit]

/-- Settles O52: OUT is a data word, which selects one column. -/
theorem onlyOneColumnIsSelectedAfterTheFirstScan : Obligations.OnlyOneColumnIsSelectedAfterTheFirstScan := by
  intro s hinv ht
  have hout := hinv.out_of_trace_ne_nil ht
  refine ⟨hout, fun c => ?_⟩
  rw [hout, colActive_dataWord]

/-! ## Within a scan step -/

/-- From the rising LATCH after a word's 48 events on, the outputs hold the word, until LATCH rises again (R222). -/
theorem out_of_latched_word {p : Pins} (ch : Chain) (w : FrameWord) {es : List PinEvent} {n : Nat}
    (hc : p.clock = false) (hl : p.latch = false) (hn : 49 ≤ n) (hes : ∀ e ∈ es, e ≠ ⟨.latch, true⟩) :
    (replay p ch ((txEvents w ++ latchEvents ++ es).take n)).2.out = w := by
  have hsplit : (txEvents w ++ latchEvents ++ es).take n =
      txEvents w ++ (⟨.latch, true⟩ :: (⟨.latch, false⟩ :: es).take (n - 49)) := by
    rw [List.append_assoc, List.take_append, txEvents_length,
      List.take_of_length_le (by rw [txEvents_length]; omega), show n - 48 = n - 49 + 1 by omega]
    rfl
  have hquiet : ∀ e ∈ (⟨.latch, false⟩ :: es : List PinEvent).take (n - 49), e ≠ ⟨.latch, true⟩ := fun e he => by
    obtain rfl | he := List.mem_cons.1 (List.mem_of_mem_take he)
    · decide
    · exact hes e he
  rw [hsplit, replay_append, replay_tx _ _ _ hc, replay, out_of_no_latch _ _ _ hquiet]
  simp [wireStep, hl, Chain.load]

theorem tx_no_rising_latch (w : FrameWord) : ∀ e ∈ txEvents w, e ≠ ⟨.latch, true⟩ := fun _ he hlatch =>
  tx_no_latch he (congrArg PinEvent.pin hlatch)

section
variable {p : Pins} (ch : Chain) (cfg : Cfg) (v : Byte) (c : Column) {n : Nat}

/-- Up to the first latch pulse of a scan step the outputs are as before (R152, R226). -/
theorem out_before_first_latch (hn : n ≤ 48) : (replay p ch ((scanEvents cfg v c).take n)).2.out = ch.out := by
  have htake : (scanEvents cfg v c).take n = (txEvents cfg.blank).take n := by
    rw [scanEvents, List.append_assoc, List.take_append_of_le_length (by rwa [txEvents_length])]
  rw [htake]
  exact out_of_no_latch _ _ _ fun e he => tx_no_rising_latch _ e (List.mem_of_mem_take he)

/-- Between the two latch pulses of a scan step the outputs are BLANK (R226). -/
theorem out_between_latches (hc : p.clock = false) (hl : p.latch = false) (h49 : 49 ≤ n) (h98 : n ≤ 98) :
    (replay p ch ((scanEvents cfg v c).take n)).2.out = cfg.blank := by
  have htake : (scanEvents cfg v c).take n =
      (txEvents cfg.blank ++ latchEvents ++ txEvents (cfg.dataWord v c)).take n := by
    rw [scanEvents_flat]
    exact List.take_append_of_le_length h98
  rw [htake]
  exact out_of_latched_word ch cfg.blank hc hl h49 (tx_no_rising_latch _)

/-- From the second latch pulse of a scan step on the outputs are the data word (R156). -/
theorem out_after_second_latch (hc : p.clock = false) (hl : p.latch = false) (h99 : 99 ≤ n) :
    (replay p ch ((scanEvents cfg v c).take n)).2.out = cfg.dataWord v c := by
  have htake : (scanEvents cfg v c).take n = txEvents cfg.blank ++ latchEvents ++
      (txEvents (cfg.dataWord v c) ++ latchEvents ++ []).take (n - 50) := by
    have hlen : (txEvents cfg.blank ++ latchEvents).length = 50 := rfl
    rw [scanEvents, List.append_nil, List.take_append, hlen, List.take_of_length_le (by omega)]
  rw [htake, replay_append, replay_transmit _ _ _ hc hl]
  exact out_of_latched_word _ _ rfl rfl (by omega) (by simp)

end

/-- Settles O23: the outputs in each of the three parts of a scan step, and BLANK read as lines and LEDs. -/
theorem betweenTheTwoLatchPulsesNoLedIsLit : Obligations.BetweenTheTwoLatchPulsesNoLedIsLit := by
  intro s n hc hl v out
  have hout : out = (replay s.pins s.chain ((scanEvents s.cfg v s.cursor).take n)).2.out :=
    congrArg Chain.out (drive_chain s.capture _)
  rw [hout]
  refine ⟨fun h48 => out_before_first_latch _ _ _ _ h48, fun h49 h98 => ?between,
    fun h99 => out_after_second_latch _ _ _ _ hc hl h99⟩
  case between =>
    rw [out_between_latches _ _ _ _ hc hl h49 h98]
    refine ⟨rfl, fun i c => ?_⟩
    obtain ⟨hrow, hcol⟩ := lines_blank s.cfg i c
    exact ⟨hrow, hcol, lit_blank s.cfg i c⟩

/-! ## What commands do beside the clock level -/

/-- The operations a command word can stand for (R79). -/
theorem decodeCommand_cases (w : CmdWord) : decodeCommand w = .nop ∨ (∃ n, decodeCommand w = .compose n) ∨
    decodeCommand w = .publish ∨ ∃ now, decodeCommand w = .poll now := by
  rw [← cmdWord_fields w]
  obtain h | h | h | h := opcode_cases (cmdOp w) <;> rw [h]
  · exact .inl (decodeCommand_nop _)
  · exact .inr (.inl ⟨_, decodeCommand_compose _⟩)
  · exact .inr (.inr (.inl (decodeCommand_publish _)))
  · exact .inr (.inr (.inr ⟨_, decodeCommand_poll _⟩))

theorem scan_withTickCnt (s : State) (k : Nat) : ({ s with tickCnt := k } : State).scan = { s.scan with tickCnt := k } := by
  rw [scan_eq, scan_eq]
  rfl

theorem scan_withLastRefresh (s : State) (now : Word32) :
    ({ s with lastRefresh := now } : State).scan = { s.scan with lastRefresh := now } := by
  rw [scan_eq, scan_eq]
  rfl

/-- A command neither reads nor writes `tick_cnt`, which is the clock level's own (R9, R26). -/
theorem exec_command_withTickCnt {w : CmdWord} {s t : State} (k : Nat) (he : exec (decodeCommand w) s = .next t) :
    exec (decodeCommand w) { s with tickCnt := k } = .next { t with tickCnt := k } := by
  obtain h | ⟨n, h⟩ | h | ⟨now, h⟩ := decodeCommand_cases w <;> rw [h] at he ⊢
  · cases he; rfl
  · cases he; rfl
  · cases he; rfl
  · cases hd : s.pollDue now
    · rw [exec_poll_of_not_due hd] at he
      cases he
      exact exec_poll_of_not_due hd
    · rw [exec_poll_of_due hd] at he
      cases he
      rw [exec_poll_of_due (s := { s with tickCnt := k }) hd, scan_withTickCnt]

/-- A POLL is due in POLLED mode only (R172). -/
theorem polled_of_pollDue {s : State} {now : Word32} (h : s.pollDue now = true) : s.cfg.scanMode = .polled := by
  cases hm : s.cfg.scanMode
  · simp [State.pollDue, hm] at h
  · rfl

end Sys2Proof.Machine

namespace Sys2Proof.Machine.Clock

/-! ## A command taken on an edge -/

/-- All that taking a command does (R261): the four commands, and for POLL whether it is due. -/
theorem accept_cases (c : Core) (w : CmdWord) :
    (decodeCommand w = .nop ∧ c.accept w = c) ∨
    (∃ n, decodeCommand w = .compose n ∧
      c.accept w = { c with arch := c.arch.composeInto n, hold := (Config.composeHold c.cycle).val }) ∨
    (decodeCommand w = .publish ∧ c.accept w = { c with arch := c.arch.swap }) ∨
    (∃ now, decodeCommand w = .poll now ∧ c.arch.pollDue now = true ∧ c.accept w =
      { Core.start { c with arch := { c.arch with lastRefresh := now } } with hold := Config.scanCycles }) ∨
    (∃ now, decodeCommand w = .poll now ∧ c.arch.pollDue now = false ∧ c.accept w = c) := by
  unfold Core.accept
  obtain h | ⟨n, h⟩ | h | ⟨now, h⟩ := decodeCommand_cases w <;> rw [h]
  · exact .inl ⟨rfl, rfl⟩
  · exact .inr (.inl ⟨n, rfl, rfl⟩)
  · exact .inr (.inr (.inl ⟨rfl, rfl⟩))
  · cases hd : c.arch.pollDue now
    · exact .inr (.inr (.inr (.inr ⟨now, rfl, hd, if_neg (by simp [hd])⟩)))
    · exact .inr (.inr (.inr (.inl ⟨now, rfl, hd, if_pos hd⟩)))

theorem finish_pollDue (c : Core) (now : Word32) : c.finish.pollDue now = c.arch.pollDue now := by
  rw [State.pollDue, State.pollDue, finish_cfg, finish_lastRefresh]

/-- A command taken while a scan step is in progress does what it does after that step, a POLL that is due being taken only when
none is (R261). -/
theorem exec_accept (c : Core) (w : CmdWord) (hidle : ∀ now, c.arch.pollDue now = true → c.inFlight = []) :
    exec (decodeCommand w) c.finish = .next (c.accept w).finish := by
  obtain ⟨h, ha⟩ | ⟨n, h, ha⟩ | ⟨h, ha⟩ | ⟨now, h, hd, ha⟩ | ⟨now, h, hd, ha⟩ := accept_cases c w <;> rw [h, ha]
  · rfl
  · exact congrArg Host.Outcome.next (finish_composeInto c n).symm
  · exact congrArg Host.Outcome.next (finish_swap c).symm
  · rw [exec_poll_of_due (by rw [finish_pollDue, hd]), finish_idle c (hidle now hd), ← scan_withLastRefresh]
    exact congrArg Host.Outcome.next
      (start_finish { c with arch := { c.arch with lastRefresh := now } }).symm
  · exact exec_poll_of_not_due (by rw [finish_pollDue, hd])

/-- A command taken while no scan step is in progress leaves none in progress that `cmd_ready` is not held low for (R261). -/
theorem accept_length_le_hold {c : Core} (w : CmdWord) (h : c.inFlight = []) :
    (c.accept w).inFlight.length ≤ (c.accept w).hold := by
  have hnone : c.inFlight.length = 0 := by rw [h, List.length_nil]
  obtain ⟨-, ha⟩ | ⟨n, -, ha⟩ | ⟨-, ha⟩ | ⟨now, -, -, ha⟩ | ⟨now, -, -, ha⟩ := accept_cases c w <;> rw [ha]
  · omega
  · dsimp only; omega
  · dsimp only; omega
  · exact Nat.le_succ 100
  · omega

/-! ## The clock level's invariant -/

theorem inv_timer {c : Core} (hm : c.arch.cfg.scanMode = .timer) : c.inv ↔ c.arch.tickCnt < c.arch.cfg.tickDiv ∧
    (c.inFlight = [] ∨ c.inFlight.length + c.arch.tickCnt ≤ 100) := by
  rw [Core.inv, hm]

theorem inv_polled {c : Core} (hm : c.arch.cfg.scanMode = .polled) : c.inv ↔ c.inFlight.length ≤ c.hold := by
  rw [Core.inv, hm]

/-- With the timer at 0 and no scan step in progress the invariant holds: at power-on and after a reset (R240, R241). -/
theorem inv_of_rest {c : Core} (hw : c.arch.cfg.wf = true) (hcnt : c.arch.tickCnt = 0) (hidle : c.inFlight = []) : c.inv := by
  cases hm : c.arch.cfg.scanMode
  · exact (inv_timer hm).2 ⟨by rw [hcnt]; exact tickDiv_pos hw hm, .inl hidle⟩
  · exact (inv_polled hm).2 (by rw [hidle]; exact Nat.zero_le _)

/-- The timer fires only when no scan step is in progress: a tick period is longer than a scan step (R208). -/
theorem idle_of_fires {c : Core} (hw : c.arch.cfg.wf = true) (hinv : c.inv) (hf : c.fires = true) : c.inFlight = [] := by
  cases hm : c.arch.cfg.scanMode
  · have hlong := tickDiv_gt hw hm
    rw [fires_timer c hm, decide_eq_true_iff] at hf
    obtain ⟨-, hidle | hlen⟩ := (inv_timer hm).1 hinv
    · exact hidle
    · omega
  · rw [fires_polled c hm] at hf
    cases hf

/-- In POLLED mode `cmd_ready` is high only when no scan step is in progress (R261). -/
theorem idle_of_ready {c : Core} (hm : c.arch.cfg.scanMode = .polled) (hinv : c.inv) (hready : c.ready = true) :
    c.inFlight = [] := by
  have hhold : c.hold = 0 := eq_of_beq hready
  have hlen := (inv_polled hm).1 hinv
  exact List.length_eq_zero_iff.1 (by omega)

theorem ready_of_takes {p : Ports} {c : Core} (ht : c.takes p = true) : c.ready = true := by
  rw [Core.takes, Bool.and_eq_true] at ht
  obtain ⟨-, hready⟩ := ht
  exact hready

/-- In TIMER mode the pin events to come after an edge without reset are those of a new scan step, or all but the first of those
to come before it, whatever command is taken (R172, R211, R260). -/
theorem edge_inFlight_timer {p : Ports} {c : Core} (hr : p.rst = false) (hm : c.arch.cfg.scanMode = .timer) :
    (edge p c).inFlight = if c.fires then scanEvents c.arch.cfg c.driveOne.arch.capture.colLatch c.driveOne.arch.cursor
      else c.inFlight.tail := by
  have htimer : c.driveOne.timer.inFlight = if c.fires then
      scanEvents c.arch.cfg c.driveOne.arch.capture.colLatch c.driveOne.arch.cursor else c.inFlight.tail := by
    rw [timer_eq _ (by rwa [driveOne_cfg]), driveOne_fires, ← driveOne_inFlight, ← driveOne_cfg]
    split <;> rfl
  rw [← htimer, edge_eq p c hr]
  split
  · exact accept_inFlight _ _ (by rwa [timer_cfg, driveOne_cfg])
  · rfl

theorem edge_inv_timer {p : Ports} {c : Core} (hr : p.rst = false) (hm : c.arch.cfg.scanMode = .timer) (hinv : c.inv) :
    (edge p c).inv := by
  obtain ⟨hlt, hflight⟩ := (inv_timer hm).1 hinv
  rw [inv_timer (by rwa [edge_cfg]), edge_cfg, edge_tickCnt p c hr hm, edge_inFlight_timer hr hm, fires_timer c hm]
  by_cases hf : c.arch.cfg.tickDiv ≤ c.arch.tickCnt + 1
  · simp only [hf, decide_true, if_true]
    exact ⟨by omega, .inr (by rw [scanEvents_length])⟩
  · simp only [hf, decide_false, if_false, Bool.false_eq_true]
    refine ⟨by omega, ?_⟩
    obtain hidle | hlen := hflight
    · exact .inl (by rw [hidle]; rfl)
    · cases hes : c.inFlight with
      | nil => exact .inl rfl
      | cons e es => exact .inr (by rw [hes, List.length_cons] at hlen; rw [List.tail_cons]; omega)

theorem edge_inv_polled {p : Ports} {c : Core} (hr : p.rst = false) (hm : c.arch.cfg.scanMode = .polled) (hinv : c.inv) :
    (edge p c).inv := by
  have htimer : c.driveOne.timer = c.driveOne := timer_polled _ (by rwa [driveOne_cfg])
  rw [inv_polled (by rwa [edge_cfg]), edge_eq p c hr, htimer]
  split
  · next ht =>
    have hidle := idle_of_ready hm hinv (ready_of_takes ht)
    exact accept_length_le_hold _ (by rw [driveOne_inFlight, hidle]; rfl)
  · have hlen := (inv_polled hm).1 hinv
    change c.driveOne.inFlight.length ≤ c.driveOne.hold - 1
    rw [driveOne_inFlight, driveOne_hold, List.length_tail]
    omega

/-- An edge with reset (R240). -/
theorem edge_of_rst {p : Ports} {c : Core} (hr : p.rst = true) : edge p c = { c.resetEdge with cycle := c.cycle + 1 } := by
  rw [edge, hr]
  rfl

/-- Every edge keeps the invariant, with or without reset and in either mode. -/
theorem edge_inv {p : Ports} {c : Core} (hw : c.arch.cfg.wf = true) (hinv : c.inv) : (edge p c).inv := by
  cases hr : p.rst
  · cases hm : c.arch.cfg.scanMode
    · exact edge_inv_timer hr hm hinv
    · exact edge_inv_polled hr hm hinv
  · exact inv_of_rest (by rwa [edge_cfg]) (by rw [edge_of_rst hr]; rfl) (by rw [edge_of_rst hr]; rfl)

/-- Settles O53: power-on is at rest, and `edge_inv`. -/
theorem everyClockEdgeKeepsScanStepsApart : Obligations.EveryClockEdgeKeepsScanStepsApart :=
  ⟨fun _ _ _ hw => inv_of_rest hw rfl rfl, fun _ _ hw hinv => edge_inv hw hinv⟩

/-! ## Refinement -/

/-- The tick of an edge seen with the scan step in progress done: SCAN if the timer fires (R204, R211). -/
theorem tick_finish {c : Core} (hw : c.arch.cfg.wf = true) (hinv : c.inv) : c.driveOne.timer.finish =
    { (if c.fires then c.finish.scan else c.finish) with tickCnt := c.driveOne.timer.arch.tickCnt } := by
  have hidle : c.driveOne.fires = true → c.driveOne.inFlight = [] := fun hf => by
    rw [driveOne_fires] at hf
    rw [driveOne_inFlight, idle_of_fires hw hinv hf, List.tail_nil]
  rw [timer_finish _ hidle, driveOne_fires, finish_driveOne]

/-- On an edge that takes a POLL that is due no scan step is in progress (R261). -/
theorem idle_of_takes_due {p : Ports} {c : Core} (hinv : c.inv) (ht : c.takes p = true) (now : Word32)
    (hd : c.driveOne.timer.arch.pollDue now = true) : c.driveOne.timer.inFlight = [] := by
  have hm : c.arch.cfg.scanMode = .polled := by
    have := polled_of_pollDue hd
    rwa [timer_cfg, driveOne_cfg] at this
  rw [timer_polled _ (by rwa [driveOne_cfg]), driveOne_inFlight, idle_of_ready hm hinv (ready_of_takes ht), List.tail_nil]

/-- Settles O56: the tick by `tick_finish`, then the command taken, if one is, by `exec_accept`; `tick_cnt`, which the tick moves,
is nothing to the command. -/
theorem clockEdgesRefineWholeOperations : Obligations.ClockEdgesRefineWholeOperations := by
  intro p c hw hinv hr s1 i
  have htick : c.driveOne.timer.finish = { s1 with tickCnt := c.driveOne.timer.arch.tickCnt } := tick_finish hw hinv
  rw [edge_eq p c hr]
  cases ht : c.takes p
  case false =>
    have hi : i = .nop := if_neg (by rw [← Core.takes, ht]; exact Bool.false_ne_true)
    exact ⟨s1, by rw [hi]; rfl, htick⟩
  case true =>
    have hi : i = decodeCommand (cmdWord p.cmdOp p.cmdArg) := if_pos ht
    obtain ⟨t, he, -⟩ := everyCommandWordCompletes (cmdWord p.cmdOp p.cmdArg) s1
    have hcommand := exec_command_withTickCnt c.driveOne.timer.arch.tickCnt he
    rw [← htick, exec_accept _ _ (idle_of_takes_due hinv ht)] at hcommand
    refine ⟨t, by rw [hi, he], (Host.Outcome.next.inj hcommand).trans ?_⟩
    rw [← accept_tickCnt]
    rfl

end Sys2Proof.Machine.Clock
end

section
/-! Reset and hazards (spec/70_reset_and_hazards.md): the display stays dark until the first PUBLISH (R246), RESET on a clock edge
(R240, R241, R243), and the reference timing of a scan step and of the command port (R260, R261). -/

namespace Sys2Proof.Machine

/-! ## Dark until PUBLISH -/

/-- A scan step that captures an all-zero byte lights nothing (R246). -/
theorem scan_dark {s : State} (h : s.fb s.liveSel s.cursor = 0x00) (i : Fin 8) (c : Column) :
    lit s.cfg s.scan.chain.out i c = false := by
  rw [scan_out, lit_dataWord, h]
  simp

/-- Settles O25: RESET clears both buffers; any other operation but PUBLISH keeps `live_sel` (O36) and the live buffer (O38). -/
theorem darkUntilThePublish : Obligations.DarkUntilThePublish := by
  intro s t i hdark hpublish he
  refine ⟨fun c => ?live, ?scan⟩
  case live =>
    by_cases hreset : i = .reset
    · subst hreset
      cases he
      exact resetBlock_fb s _ c
    · obtain ⟨hlive, -⟩ := onlyPublishAndResetWriteLiveSel i s t he
      obtain ⟨hfb, -⟩ := onlyComposeAndResetWriteFrameBuffers i s t he hreset
      rw [hlive hpublish hreset, hfb, hdark]
  case scan =>
    rintro rfl
    cases he
    intro r c
    rw [scan_cfg, scan_dark (hdark s.cursor)]

end Sys2Proof.Machine

namespace Sys2Proof.Machine.Clock

/-! ## Reset on a clock edge -/

/-- Settles O57: `edge_of_rst`, whose architectural state is `resetBlock`. -/
theorem resetEdgeAbandonsTheScanStep : Obligations.ResetEdgeAbandonsTheScanStep := by
  intro p c hr
  rw [edge_of_rst hr]
  exact ⟨rfl, rfl, resetBlock_chain c.arch, rfl⟩

/-! ## Taking each command -/

theorem accept_nop (c : Core) (arg : Word32) : c.accept (cmdWord 0b00 arg) = c := by
  rw [Core.accept, decodeCommand_nop]

theorem accept_compose (c : Core) (arg : Word32) : c.accept (cmdWord 0b01 arg) =
    { c with arch := c.arch.composeInto (sext32 arg), hold := (Config.composeHold c.cycle).val } := by
  rw [Core.accept, decodeCommand_compose]

theorem accept_publish (c : Core) (arg : Word32) : c.accept (cmdWord 0b10 arg) = { c with arch := c.arch.swap } := by
  rw [Core.accept, decodeCommand_publish]

theorem accept_poll_due {c : Core} {now : Word32} (hd : c.arch.pollDue now = true) : c.accept (cmdWord 0b11 now) =
    { Core.start { c with arch := { c.arch with lastRefresh := now } } with hold := Config.scanCycles } := by
  rw [Core.accept, decodeCommand_poll]
  exact if_pos hd

theorem accept_poll_not_due {c : Core} {now : Word32} (hd : c.arch.pollDue now = false) :
    c.accept (cmdWord 0b11 now) = c := by
  rw [Core.accept, decodeCommand_poll]
  exact if_neg (by rw [hd]; exact Bool.false_ne_true)

/-- An edge that takes a command: the command comes after the tick (R204). -/
theorem edge_of_takes {p : Ports} {c : Core} (hr : p.rst = false) (ht : c.takes p = true) :
    edge p c = { c.driveOne.timer.accept (cmdWord p.cmdOp p.cmdArg) with cycle := c.cycle + 1 } := by
  rw [edge_eq p c hr, if_pos ht]

/-- An edge that takes no command. -/
theorem edge_of_not_takes {p : Ports} {c : Core} (hr : p.rst = false) (ht : c.takes p = false) :
    edge p c = { c.driveOne.timer.waitOne with cycle := c.cycle + 1 } := by
  rw [edge_eq p c hr, if_neg (by rw [ht]; exact Bool.false_ne_true)]

theorem takes_of_ready {p : Ports} {c : Core} (hv : p.cmdValid = true) (hready : c.ready = true) : c.takes p = true := by
  rw [Core.takes, hv, hready]
  rfl

theorem not_takes_of_not_valid {p : Ports} {c : Core} (hv : p.cmdValid = false) : c.takes p = false := by
  rw [Core.takes, hv]
  rfl

/-- Whether a POLL is due is the same before and after the edge's pin event and tick (R171). -/
theorem tick_pollDue (c : Core) (now : Word32) : c.driveOne.timer.arch.pollDue now = c.arch.pollDue now := by
  rw [State.pollDue, State.pollDue, timer_cfg, driveOne_cfg, timer_lastRefresh, driveOne_lastRefresh]

/-! ## How long `cmd_ready` is low -/

/-- On edges without reset `cmd_ready` is 1 again after `hold` of them and not before (R261). -/
theorem cmdReady_edges {ps : List Ports} {c : Core} (hr : ∀ p ∈ ps, p.rst = false) (hlen : ps.length ≤ c.hold) :
    (edges ps c).outs.cmdReady = decide (ps.length = c.hold) := by
  change ((edges ps c).hold == 0) = _
  rw [edges_hold ps c hr hlen, Bool.eq_iff_iff, beq_iff_eq, decide_eq_true_iff]
  omega

/-- The hold that a command leaves on the edge that takes it, the tick's part of the edge leaving it alone. -/
theorem edge_hold_of_takes {p : Ports} {c : Core} (hr : p.rst = false) (ht : c.takes p = true) :
    (edge p c).hold = (c.driveOne.timer.accept (cmdWord p.cmdOp p.cmdArg)).hold := by
  rw [edge_of_takes hr ht]

/-- Settles O58: `cmdReady_edges` with the hold that each command leaves. -/
theorem commandsHoldReadyLowAsLongAsTheSpecSays : Obligations.CommandsHoldReadyLowAsLongAsTheSpecSays := by
  intro p c hr hready after lowFor
  have hidle : c.driveOne.timer.hold = 0 := by rw [timer_hold, driveOne_hold]; exact eq_of_beq hready
  have hlow {k : Nat} (hk : (edge p c).hold = k) : lowFor k := by
    subst hk
    exact fun ps hps hlen => cmdReady_edges hps hlen
  have htaken (hv : p.cmdValid = true) := edge_hold_of_takes hr (takes_of_ready hv hready)
  refine ⟨fun hv hop => ?compose, fun hv hop hd => hlow ?pollDue, fun hv hop hd => hlow ?pollNotDue,
    fun hv hop => hlow ?instant, fun hv => hlow ?none⟩
  case compose =>
    refine ⟨(Config.composeHold c.driveOne.timer.cycle).val, Nat.le_of_lt_succ (Fin.isLt _), hlow ?_⟩
    rw [htaken hv, hop, accept_compose]
  case pollDue =>
    rw [htaken hv, hop, accept_poll_due (by rw [tick_pollDue, hd])]
    rfl
  case pollNotDue => rw [htaken hv, hop, accept_poll_not_due (by rw [tick_pollDue, hd]), hidle]
  case instant =>
    obtain hop | hop := hop
    · rw [htaken hv, hop, accept_nop, hidle]
    · rw [htaken hv, hop, accept_publish, hidle]
  case none =>
    rw [edge_of_not_takes hr (not_takes_of_not_valid hv)]
    exact congrArg (· - 1) hidle

/-! ## A scan step edge by edge -/

/-- The edge `p` does nothing but send the next pin event: no reset, no tick that fires, no command taken. -/
def Core.Quiet (c : Core) (p : Ports) : Prop := p.rst = false ∧ c.fires = false ∧ c.takes p = false

/-- Each of the edges `ps` from `c` on is quiet. -/
def Core.QuietFor (c : Core) : List Ports → Prop
  | [] => True
  | p :: ps => c.Quiet p ∧ (edge p c).QuietFor ps

/-- While `cmd_ready` is low in POLLED mode, whatever the host presents is nothing to the block (R172, R261). -/
theorem quietFor_of_low {ps : List Ports} {c : Core} (hm : c.arch.cfg.scanMode = .polled) (hr : ∀ p ∈ ps, p.rst = false)
    (hlen : ps.length ≤ c.hold) : c.QuietFor ps := by
  induction ps generalizing c with
  | nil => trivial
  | cons p ps ih =>
    obtain ⟨hp, hps⟩ := List.forall_mem_cons.1 hr
    rw [List.length_cons] at hlen
    have hlow : c.ready = false := beq_eq_false_iff_ne.2 (by omega)
    have hhold : (edge p c).hold = c.hold - 1 := by rw [edge_low p c hp (by omega)]
    refine ⟨⟨hp, fires_polled c hm, by rw [Core.takes, hlow, Bool.and_false]⟩, ih (by rwa [edge_cfg]) hps (by omega)⟩

/-- In TIMER mode, with no command presented, nothing happens until `tick_cnt` reaches its last value (R26, R211). -/
theorem quietFor_idle {n : Nat} {c : Core} (hm : c.arch.cfg.scanMode = .timer)
    (hlt : c.arch.tickCnt + n < c.arch.cfg.tickDiv) : c.QuietFor (List.replicate n idlePorts) := by
  induction n generalizing c with
  | zero => trivial
  | succ n ih =>
    have hcnt : (edge idlePorts c).arch.tickCnt = c.arch.tickCnt + 1 := by
      rw [edge_tickCnt idlePorts c rfl hm, if_neg (by omega)]
    refine ⟨⟨rfl, ?_, not_takes_of_not_valid rfl⟩, ih (by rwa [edge_cfg]) (by rw [hcnt, edge_cfg]; omega)⟩
    rw [fires_timer c hm, decide_eq_false_iff_not]
    omega

theorem timer_inFlight_of_not_fires {c : Core} (hf : c.fires = false) : c.timer.inFlight = c.inFlight := by
  cases hm : c.arch.cfg.scanMode
  · rw [timer_eq c hm, if_neg (by rw [hf]; exact Bool.false_ne_true)]
  · rw [timer_polled c hm]

/-- A quiet edge takes one pin event off those to come, and leaves what the scan step in progress ends in (R260). -/
theorem edge_of_quiet {p : Ports} {c : Core} (hq : c.Quiet p) : (edge p c).inFlight = c.inFlight.tail ∧
    (edge p c).finish = { c.finish with tickCnt := (edge p c).arch.tickCnt } := by
  obtain ⟨hr, hf, ht⟩ := hq
  have hquiet : c.driveOne.fires = false := by rw [driveOne_fires, hf]
  have hfinish := timer_finish c.driveOne fun h => absurd h (by rw [hquiet]; exact Bool.false_ne_true)
  rw [hquiet, if_neg Bool.false_ne_true, finish_driveOne] at hfinish
  rw [edge_of_not_takes hr ht]
  exact ⟨(timer_inFlight_of_not_fires hquiet).trans (driveOne_inFlight c), hfinish⟩

/-- Quiet edges one after the other (R260). -/
theorem edges_of_quiet {ps : List Ports} {c : Core} (hq : c.QuietFor ps) :
    (edges ps c).inFlight = c.inFlight.drop ps.length ∧
    (edges ps c).finish = { c.finish with tickCnt := (edges ps c).arch.tickCnt } := by
  induction ps generalizing c with
  | nil => exact ⟨rfl, by rw [edges_nil, finish_update]⟩
  | cons p ps ih =>
    obtain ⟨hp, hps⟩ := hq
    obtain ⟨hflight, hfinish⟩ := edge_of_quiet hp
    obtain ⟨hflights, hfinishes⟩ := ih hps
    refine ⟨?_, ?_⟩
    · change (edges ps (edge p c)).inFlight = _
      rw [hflights, hflight, List.drop_tail, List.length_cons]
    · change (edges ps (edge p c)).finish = _
      rw [hfinishes, hfinish]
      rfl

/-- The trace of a scan step counted as done is the trace so far and the events to come (R28). -/
theorem finish_trace (c : Core) : c.finish.trace = c.arch.trace ++ c.inFlight := by
  unfold Core.finish
  split
  · next h => rw [h, List.append_nil]
  · rw [advance_trace, drive_trace]

/-- After `n` quiet edges the trace has grown by the first `n` of the events to come (R260). -/
theorem edges_trace_of_quiet {ps : List Ports} {c : Core} (hq : c.QuietFor ps) :
    (edges ps c).arch.trace = c.arch.trace ++ c.inFlight.take ps.length := by
  obtain ⟨hflight, hfinish⟩ := edges_of_quiet hq
  have htrace : (edges ps c).arch.trace ++ c.inFlight.drop ps.length = c.arch.trace ++ c.inFlight := by
    rw [← hflight, ← finish_trace, hfinish, ← finish_trace]
  refine List.append_cancel_right (htrace.trans ?_)
  rw [List.append_assoc, List.take_append_drop]

/-- After as many quiet edges as there are events to come, the scan step is done (R207, R260). -/
theorem edges_done_of_quiet {ps : List Ports} {c : Core} (hq : c.QuietFor ps) (hlen : c.inFlight.length ≤ ps.length) :
    (edges ps c).inFlight = [] ∧ (edges ps c).arch = { c.finish with tickCnt := (edges ps c).arch.tickCnt } := by
  obtain ⟨hflight, hfinish⟩ := edges_of_quiet hq
  have hnone : (edges ps c).inFlight = [] := hflight.trans (List.drop_eq_nil_of_le hlen)
  exact ⟨hnone, by rw [← hfinish, finish_idle _ hnone]⟩

/-- The block right after the capture cycle of a scan step that starts in the state `s` (R151, R260). -/
def Core.scanning (s : State) (hold cycle : Nat) : Core where
  arch := s.capture
  inFlight := scanEvents s.cfg (s.fb s.liveSel s.cursor) s.cursor
  hold := hold
  cycle := cycle

theorem start_eq_scanning (c : Core) : c.start = .scanning c.arch c.hold c.cycle := rfl

theorem finish_scanning (s : State) (hold cycle : Nat) : (Core.scanning s hold cycle).finish = s.scan :=
  start_finish ⟨s, [], hold, cycle⟩

/-- 100 quiet edges after the capture the block is as SCAN leaves it, but for the tick timer's count (R158, R260). -/
theorem edges_scanning_done {ps : List Ports} {s : State} {hold cycle : Nat}
    (hq : (Core.scanning s hold cycle).QuietFor ps) (hlen : ps.length = 100) :
    (edges ps (.scanning s hold cycle)).inFlight = [] ∧ (edges ps (.scanning s hold cycle)).arch =
      { s.scan with tickCnt := (edges ps (.scanning s hold cycle)).arch.tickCnt } := by
  rw [← finish_scanning s hold cycle]
  exact edges_done_of_quiet hq hlen.ge

/-! ## A scan step that the timer starts -/

theorem driveOne_idle {c : Core} (h : c.inFlight = []) : c.driveOne = c := by
  rw [Core.driveOne, h]

theorem timer_of_fires {c : Core} (hf : c.fires = true) : c.arch.cfg.scanMode = .timer := by
  cases hm : c.arch.cfg.scanMode
  · rfl
  · rw [fires_polled c hm] at hf
    cases hf

/-- The edge on which the timer fires, with nothing in progress and no command taken, is the capture (R211, R260). -/
theorem edge_of_fires {p : Ports} {c : Core} (hidle : c.inFlight = []) (hf : c.fires = true) (hr : p.rst = false)
    (ht : c.takes p = false) : edge p c = .scanning { c.arch with tickCnt := 0 } (c.hold - 1) (c.cycle + 1) := by
  rw [edge_of_not_takes hr ht, driveOne_idle hidle, timer_eq c (timer_of_fires hf), if_pos hf, start_eq_scanning]
  rfl

section
variable {s : State} {hold cycle n : Nat} (hw : s.cfg.wf = true) (hm : s.cfg.scanMode = .timer) (hn : n ≤ 100)
include hw hm hn

/-- With no command presented all edges of a scan step that the timer starts are quiet: a tick period is longer (R208). -/
theorem scanning_quietFor_idle :
    (Core.scanning { s with tickCnt := 0 } hold cycle).QuietFor (List.replicate n idlePorts) := by
  have hlong := tickDiv_gt hw hm
  have hlt : 0 + n < s.cfg.tickDiv := by omega
  exact quietFor_idle hm hlt

/-- The timer counts the edges of the scan step that it starts (R26). -/
theorem scanning_tickCnt_idle :
    (edges (List.replicate n idlePorts) (.scanning { s with tickCnt := 0 } hold cycle)).arch.tickCnt = n := by
  have hlong := tickDiv_gt hw hm
  have hlt : n < s.cfg.tickDiv := by omega
  have hr : ∀ p ∈ List.replicate n idlePorts, p.rst = false := fun p hp => by rw [List.eq_of_mem_replicate hp]; rfl
  rw [edges_tickCnt _ _ hm (tickDiv_pos hw hm) hr, List.length_replicate]
  exact (congrArg (· % _) (Nat.zero_add n)).trans (Nat.mod_eq_of_lt hlt)

end

/-- Once the 100 events of a scan step that the timer starts are sent, the block is as SCAN leaves it (R170, R260). -/
theorem edges_scanning_done_timer {s : State} {hold cycle : Nat} (hw : s.cfg.wf = true) (hm : s.cfg.scanMode = .timer) :
    let after := edges (List.replicate 100 idlePorts) (.scanning { s with tickCnt := 0 } hold cycle)
    after.inFlight = [] ∧ after.arch = { s.scan with tickCnt := 100 } := by
  obtain ⟨hnone, harch⟩ := edges_scanning_done (scanning_quietFor_idle hw hm le_rfl) List.length_replicate
  refine ⟨hnone, harch.trans ?_⟩
  rw [scanning_tickCnt_idle hw hm le_rfl, scan_withTickCnt]

/-! ## A scan step that a POLL starts -/

/-- The edge that takes a POLL that is due, with nothing in progress, is the capture (R171, R261). -/
theorem edge_of_poll_due {c : Core} {now : Word32} (hidle : c.inFlight = []) (hready : c.ready = true)
    (hd : c.arch.pollDue now = true) : edge ⟨false, true, 0b11, now⟩ c =
      .scanning { c.arch with lastRefresh := now } Config.scanCycles (c.cycle + 1) := by
  rw [edge_of_takes rfl (takes_of_ready rfl hready), driveOne_idle hidle, timer_polled c (polled_of_pollDue hd),
    accept_poll_due hd, start_eq_scanning]
  rfl

/-- In POLLED mode there is no tick timer: its register keeps what it holds (R26). -/
theorem edge_tickCnt_polled {p : Ports} {c : Core} (hm : c.arch.cfg.scanMode = .polled) (hr : p.rst = false) :
    (edge p c).arch.tickCnt = c.arch.tickCnt := by
  rw [edge_eq p c hr, timer_polled _ (by rwa [driveOne_cfg])]
  split
  · exact (accept_tickCnt _ _).trans (driveOne_tickCnt c)
  · exact driveOne_tickCnt c

theorem edges_tickCnt_polled {ps : List Ports} {c : Core} (hm : c.arch.cfg.scanMode = .polled)
    (hr : ∀ p ∈ ps, p.rst = false) : (edges ps c).arch.tickCnt = c.arch.tickCnt := by
  induction ps generalizing c with
  | nil => rfl
  | cons p ps ih =>
    obtain ⟨hp, hps⟩ := List.forall_mem_cons.1 hr
    exact (ih (by rwa [edge_cfg]) hps).trans (edge_tickCnt_polled hm hp)

/-- Once the 100 events of a scan step that a POLL starts are sent, the block is as SCAN leaves it (R171, R261). -/
theorem edges_scanning_done_polled {s : State} {hold cycle : Nat} {ps : List Ports} (hm : s.cfg.scanMode = .polled)
    (hr : ∀ p ∈ ps, p.rst = false) (hlen : ps.length = 100) (hhold : ps.length ≤ hold) :
    (edges ps (.scanning s hold cycle)).inFlight = [] ∧ (edges ps (.scanning s hold cycle)).arch = s.scan := by
  obtain ⟨hnone, harch⟩ := edges_scanning_done (quietFor_of_low (c := .scanning s hold cycle) hm hr hhold) hlen
  have hcnt : (edges ps (.scanning s hold cycle)).arch.tickCnt = s.scan.tickCnt :=
    (edges_tickCnt_polled hm hr).trans (scan_tickCnt s).symm
  exact ⟨hnone, by rw [harch, hcnt]⟩

/-! ## Both ways to start -/

/-- Settles O55: both ways to start make the same capture, and the edges after it are quiet: a tick period is longer than a scan
step, and after a POLL that is due `cmd_ready` is low. -/
theorem aScanStepTakesOneHundredAndOneEdges : Obligations.AScanStepTakesOneHundredAndOneEdges := by
  refine ⟨fun c hidle hw hf => ?timer, fun c now ps hidle hready hd hr hlen => ?poll⟩
  case timer =>
    intro after
    have hm := timer_of_fires hf
    have hafter (n : Nat) : after (n + 1) = edges (List.replicate n idlePorts)
        (.scanning { c.arch with tickCnt := 0 } (c.hold - 1) (c.cycle + 1)) :=
      congrArg (edges _) (edge_of_fires hidle hf rfl (not_takes_of_not_valid rfl))
    refine ⟨fun n hn => ?_, ?_⟩
    · rw [hafter, edges_trace_of_quiet (scanning_quietFor_idle hw hm hn), List.length_replicate]
      rfl
    · rw [hafter 100]
      exact edges_scanning_done_timer hw hm
  case poll =>
    intro after
    have hm := polled_of_pollDue hd
    have hafter : after = edges ps (.scanning { c.arch with lastRefresh := now } Config.scanCycles (c.cycle + 1)) :=
      congrArg (edges ps) (edge_of_poll_due hidle hready hd)
    have hhold : ps.length ≤ Config.scanCycles := Nat.le_succ_of_le hlen
    rw [hafter]
    refine ⟨edges_trace_of_quiet (quietFor_of_low hm hr hhold), fun hfull => ?_⟩
    rw [← scan_withLastRefresh]
    exact edges_scanning_done_polled hm hr hfull hhold

end Sys2Proof.Machine.Clock
end
